-- ==== Sys2Proof/Word.lean ====
section
/-! DEFINITION. The bit-vector types of PMCORE: every value is an unsigned integer of a stated width
(00_scope.md R10). There is no signed value and no sign extension anywhere. -/

namespace Sys2Proof

/-- An 8-bit byte: the CRC input unit (R8, BYTE_W). -/
abbrev Byte := BitVec 8

/-- A 16-bit value: a sensor register (R8, REG_W) or a CRC (R8, CRC_W). -/
abbrev Half := BitVec 16

/-- A 32-bit value: a command word (R8, CMD_W) or response data (R8). -/
abbrev Word := BitVec 32

end Sys2Proof
end

