-- ==== Sys2Proof/Syntax.lean ====
section
/-! DEFINITION. The commands of PMCORE as syntax (30_encoding.md R63): one constructor per row of the opcode
map, its operands already turned into names (R57, R58, R61, R62); the pseudo-instructions of R70; and the
commands as an assembler line writes them, their operands still plain numbers (R69). -/

namespace Sys2Proof

/-- The ten mnemonics of the opcode map (R63). -/
inductive Mnemonic where
  | crcInit | crcFeed | crcGet | frmTail | frmChk | decClr | decLoad | decRun | decRd | addrChk
  deriving DecidableEq, Repr

/-- The trailer index K of FRMTAIL (R61): 0 selects the low CRC byte, 1 the high one. -/
inductive TrailerByte where
  | lo | hi
  deriving DecidableEq, Repr

/-- The VIEW operand of DECRD (R62): raw, integer part, fractional part, divisor. -/
inductive View where
  | raw | int | frac | div
  deriving DecidableEq, Repr

/-- The FIELD operand of DECRD (R62, R77). -/
inductive Field where
  | volt | curr | pow | energy | freq | pf
  deriving DecidableEq, Repr

/-- The commands of PMCORE, one constructor per row of spec/opcode_table.json. -/
inductive Instr where
  /-- CRCINIT (R103). -/
  | crcInit
  /-- CRCFEED B (R104). -/
  | crcFeed (b : Byte)
  /-- CRCGET (R105). -/
  | crcGet
  /-- FRMTAIL K (R106). -/
  | frmTail (k : TrailerByte)
  /-- FRMCHK (R107). -/
  | frmChk
  /-- DECCLR (R81). -/
  | decClr
  /-- DECLOAD V (R82). -/
  | decLoad (v : Half)
  /-- DECRUN (R83). -/
  | decRun
  /-- DECRD VIEW, FIELD (R85). -/
  | decRd (view : View) (field : Field)
  /-- ADDRCHK A (R108). -/
  | addrChk (a : Half)
  deriving DecidableEq, Repr

/-- The row of R63 a command belongs to. -/
def Instr.mnemonic : Instr → Mnemonic
  | .crcInit => .crcInit
  | .crcFeed _ => .crcFeed
  | .crcGet => .crcGet
  | .frmTail _ => .frmTail
  | .frmChk => .frmChk
  | .decClr => .decClr
  | .decLoad _ => .decLoad
  | .decRun => .decRun
  | .decRd _ _ => .decRd
  | .addrChk _ => .addrChk

/-- The pseudo-instructions of R70. `crcFeeds` takes at least one byte (n ≥ 1): its first byte and the rest. -/
inductive Pseudo where
  | crcFeeds (b : Byte) (bs : List Byte)
  | crcCompute (bs : List Byte)
  | frmBuild (bs : List Byte)
  | frmValidate (bs : List Byte)
  | decBlock (rs : List Half)
  | decAll (view : View)
  deriving DecidableEq, Repr

/-- A command as an assembler line writes it (R69): the operands are numbers of any size, and whether each one
fits its field is still to be checked (WellFormed.lean). -/
inductive AsmCmd where
  | crcInit
  | crcFeed (b : Nat)
  | crcGet
  | frmTail (k : Nat)
  | frmChk
  | decClr
  | decLoad (v : Nat)
  | decRun
  | decRd (view field : Nat)
  | addrChk (a : Nat)
  deriving DecidableEq, Repr

end Sys2Proof
end

