-- ==== Sys2Proof/WellFormed.lean ====
section
/-! DEFINITION. Well-formedness: the operand ranges of 30_encoding.md R69 ("A number that does not fit its field
is an assembly error, and no word is produced"), checked on a command as it is written. A term of `Instr`
holds operands of exactly the values R63 admits, so it is a written command that has passed the check
(`AsmCmd.toInstr?`), and every `Instr` is well formed (Laws/WellFormed.lean). -/

namespace Sys2Proof

/-- The number that R62 gives a VIEW. -/
def View.number : View → Nat
  | .raw => 0
  | .int => 1
  | .frac => 2
  | .div => 3

/-- The VIEW of a number, R62: VIEW 4 to 15 (and anything larger) are illegal. -/
def View.ofNumber : Nat → Option View
  | 0 => some .raw
  | 1 => some .int
  | 2 => some .frac
  | 3 => some .div
  | _ => none

/-- The number that R62 gives a FIELD. -/
def Field.number : Field → Nat
  | .volt => 0
  | .curr => 1
  | .pow => 2
  | .energy => 3
  | .freq => 4
  | .pf => 5

/-- The FIELD of a number, R62: FIELD 6 to 15 (and anything larger) are illegal. -/
def Field.ofNumber : Nat → Option Field
  | 0 => some .volt
  | 1 => some .curr
  | 2 => some .pow
  | 3 => some .energy
  | 4 => some .freq
  | 5 => some .pf
  | _ => none

/-- The number that R61 gives a trailer index. -/
def TrailerByte.number : TrailerByte → Nat
  | .lo => 0
  | .hi => 1

/-- The trailer index of a number, R61. -/
def TrailerByte.ofNumber : Nat → Option TrailerByte
  | 0 => some .lo
  | 1 => some .hi
  | _ => none

/-- The operand ranges of R69. -/
def AsmCmd.wellFormed : AsmCmd → Bool
  | .crcFeed b => b ≤ 255
  | .frmTail k => k ≤ 1
  | .decLoad v => v ≤ 65535
  | .decRd view field => view ≤ 3 && field ≤ 5
  | .addrChk a => a ≤ 65535
  | .crcInit | .crcGet | .frmChk | .decClr | .decRun => true

/-- The command a written command stands for; none is an assembly error (R69). -/
def AsmCmd.toInstr? (c : AsmCmd) : Option Instr :=
  if c.wellFormed then
    match c with
    | .crcInit => some .crcInit
    | .crcFeed b => some (.crcFeed (BitVec.ofNat 8 b))
    | .crcGet => some .crcGet
    | .frmTail k => (TrailerByte.ofNumber k).map .frmTail
    | .frmChk => some .frmChk
    | .decClr => some .decClr
    | .decLoad v => some (.decLoad (BitVec.ofNat 16 v))
    | .decRun => some .decRun
    | .decRd view field => (View.ofNumber view).bind fun w => (Field.ofNumber field).map fun f => .decRd w f
    | .addrChk a => some (.addrChk (BitVec.ofNat 16 a))
  else none

/-- A command, written with its operands as numbers. -/
def Instr.toAsm : Instr → AsmCmd
  | .crcInit => .crcInit
  | .crcFeed b => .crcFeed b.toNat
  | .crcGet => .crcGet
  | .frmTail k => .frmTail k.number
  | .frmChk => .frmChk
  | .decClr => .decClr
  | .decLoad v => .decLoad v.toNat
  | .decRun => .decRun
  | .decRd view field => .decRd view.number field.number
  | .addrChk a => .addrChk a.toNat

/-- Whether a command's operands are in the ranges of R69. -/
def Instr.wellFormed (i : Instr) : Bool := i.toAsm.wellFormed

end Sys2Proof
end

