-- ==== Sys2Proof/Decode.lean ====
section
/-! DEFINITION. The command decoder of 30_encoding.md R63 to R66, written from the opcode map as a list of rows,
and after it the encoder of R71. A command word is one whole 32-bit value and has no byte order (20_memory.md
R43), so the decoder reads a word, not bytes. -/

namespace Sys2Proof

/-- One row of the opcode map (R63): its command, and the match and mask of its words. -/
structure Row where
  mnemonic : Mnemonic
  fixed : Word
  mask : Word
  deriving DecidableEq, Repr

/-- The opcode map (R63). -/
def opcodeMap : List Row :=
  [ ⟨.crcInit, 0x01000000#32, 0xFFFFFFFF#32⟩,
    ⟨.crcFeed, 0x02000000#32, 0xFFFFFF00#32⟩,
    ⟨.crcGet,  0x03000000#32, 0xFFFFFFFF#32⟩,
    ⟨.frmTail, 0x04000000#32, 0xFFFEFFFF#32⟩,
    ⟨.frmChk,  0x05000000#32, 0xFFFFFFFF#32⟩,
    ⟨.decClr,  0x10000000#32, 0xFFFFFFFF#32⟩,
    ⟨.decLoad, 0x11000000#32, 0xFFFF0000#32⟩,
    ⟨.decRun,  0x12000000#32, 0xFFFFFFFF#32⟩,
    ⟨.decRd,   0x13000000#32, 0xFFC0FFFF#32⟩,
    ⟨.addrChk, 0x20000000#32, 0xFFFF0000#32⟩ ]

/-- OPC = cmd[31:24] (R56). -/
def opcOf (w : Word) : Byte := w.extractLsb' 24 8

/-- SEL = cmd[23:16] (R57). -/
def selOf (w : Word) : Byte := w.extractLsb' 16 8

/-- IMM = cmd[15:0] (R58). -/
def immOf (w : Word) : Half := w.extractLsb' 0 16

/-- B = cmd[7:0], the CRCFEED byte (R59). -/
def byteOf (w : Word) : Byte := w.extractLsb' 0 8

/-- K = cmd[16], the FRMTAIL index (R61). -/
def trailerOf (w : Word) : TrailerByte := if w.getLsbD 16 then .hi else .lo

/-- VIEW = cmd[23:20], a DECRD operand (R62). -/
def viewOf (w : Word) : Option View := View.ofNumber (w.extractLsb' 20 4).toNat

/-- FIELD = cmd[19:16], a DECRD operand (R62). -/
def fieldOf (w : Word) : Option Field := Field.ofNumber (w.extractLsb' 16 4).toNat

/-- `(cmd AND mask) == match` (R65). -/
def Row.matches (r : Row) (w : Word) : Bool := (w &&& r.mask) == r.fixed

/-- The extra condition of a row (R63): FIELD ≤ 5 for DECRD, none for the others. -/
def Row.extra (r : Row) (w : Word) : Bool :=
  match r.mnemonic with
  | .decRd => (w.extractLsb' 16 4).toNat ≤ 5
  | .crcInit | .crcFeed | .crcGet | .frmTail | .frmChk | .decClr | .decLoad | .decRun | .addrChk => true

/-- The command that the operand fields of a word give under a mnemonic (R57 to R62). -/
def commandOf (m : Mnemonic) (w : Word) : Option Instr :=
  match m with
  | .crcInit => some .crcInit
  | .crcFeed => some (.crcFeed (byteOf w))
  | .crcGet => some .crcGet
  | .frmTail => some (.frmTail (trailerOf w))
  | .frmChk => some .frmChk
  | .decClr => some .decClr
  | .decLoad => some (.decLoad (immOf w))
  | .decRun => some .decRun
  | .decRd => (viewOf w).bind fun v => (fieldOf w).map fun f => .decRd v f
  | .addrChk => some (.addrChk (immOf w))

/-- Why a word is illegal (R66). All reasons get the same response (R127); the names are the model's (log
entry 11). -/
inductive IllegalWord where
  /-- An OPC value that R63 does not list. -/
  | unassignedOpcode
  /-- A listed OPC with a bit set that R64 says must be 0 (DECRD with VIEW above 3 among them). -/
  | mustBeZeroSet
  /-- DECRD with FIELD above 5. -/
  | fieldAboveFive
  deriving DecidableEq, Repr

/-- `Command | Illegal`, what `decode` gives (R65). -/
inductive Decoded where
  | command (i : Instr)
  | illegal (why : IllegalWord)
  deriving DecidableEq, Repr

/-- The decoder (R65), total on all 2^32 words. -/
def decode (w : Word) : Decoded :=
  match opcodeMap.find? fun r => opcOf r.fixed == opcOf w with
  | none => .illegal .unassignedOpcode
  | some r =>
    if r.matches w then
      if r.extra w then
        match commandOf r.mnemonic w with
        | some i => .command i
        | none => .illegal .mustBeZeroSet
      else .illegal .fieldAboveFive
    else .illegal .mustBeZeroSet

/-- The command a word decodes to, if it is legal. -/
def Decoded.toOption : Decoded → Option Instr
  | .command i => some i
  | .illegal _ => none

/-- Whether a word is a legal command (R66). -/
def legal (w : Word) : Bool := (decode w).toOption.isSome

/-- The 1-bit code of a trailer index (R61). -/
def TrailerByte.code : TrailerByte → BitVec 1
  | .lo => 0#1
  | .hi => 1#1

/-- The VIEW code of R62. -/
def View.code (v : View) : BitVec 4 := BitVec.ofNat 4 v.number

/-- The FIELD code of R62. -/
def Field.code (f : Field) : BitVec 4 := BitVec.ofNat 4 f.number

/-- The encoding function (R71). -/
def encode : Instr → Word
  | .crcInit => 0x01000000#32
  | .crcFeed b => 0x02000000#32 ||| b.setWidth 32
  | .crcGet => 0x03000000#32
  | .frmTail k => 0x04000000#32 ||| (k.code.setWidth 32 <<< 16)
  | .frmChk => 0x05000000#32
  | .decClr => 0x10000000#32
  | .decLoad v => 0x11000000#32 ||| v.setWidth 32
  | .decRun => 0x12000000#32
  | .decRd view field => 0x13000000#32 ||| (view.code.setWidth 32 <<< 20) ||| (field.code.setWidth 32 <<< 16)
  | .addrChk a => 0x20000000#32 ||| a.setWidth 32

/-- The 32-bit word whose low `nbits` bits are those of `w`, every other bit 0 (log entry 19). Every command is
exactly one 32-bit word (R68). -/
def tableWord (nbits w : Nat) : Word := BitVec.ofNat 32 (w % 2 ^ nbits)

/-- The command that the decoder reads from an opcode-table word of `nbits` bits. -/
def decodeTableWord (nbits w : Nat) : Option Instr := (decode (tableWord nbits w)).toOption

end Sys2Proof
end

