-- ==== Sys2Proof/Config.lean ====
section
/-! DEFINITION. The parameters of 00_scope.md R8: the fixed ones as constants, the OPEN ones as free values
(opaque constants of which nothing is known). -/

namespace Sys2Proof.Config

/-- NREG, registers in a block (R8). -/
abbrev nreg : Nat := 10

/-- POLY, the reflected polynomial (R8, D23). -/
abbrev crcPoly : Half := 0xA001#16

/-- CRC_INIT, the initial CRC value (R8, D23, C8). -/
abbrev crcInit : Half := 0xFFFF#16

/-- ADDR_MIN (R8). -/
abbrev addrMin : Nat := 1

/-- ADDR_MAX (R8). -/
abbrev addrMax : Nat := 247

/-- P_LATENCY - 1 of a command of the given kind (`none`: an illegal word). P_LATENCY is an OPEN parameter, at
least 1, "may differ between commands" and "does not depend on any operand or on any earlier input length"
(R8, R152, D2). A free value (log entry 12); used by Machine/Port.lean only. -/
opaque extraLatency : Option Mnemonic → Nat

/-- P_RESET_RECOVERY, the cycles after `rst_n` rises before `cmd_ready` = 1, an OPEN parameter (R8, R145, D20).
A free value (log entry 13); used by Machine/Port.lean only. -/
opaque resetRecovery : Nat

/-- Whether `cmd_ready` is already 1 in the cycle that presents a response. R20 holds it 0 "until the cycle in
which it presents that command's response" and leaves that cycle itself open. A free value (log entry 14);
used by Machine/Port.lean only. -/
opaque readyWhilePresenting : Bool

end Sys2Proof.Config
end

