-- ==== Sys2Proof/Machine/State.lean ====
section
/-! DEFINITION. The state of PMCORE (10_state.md R23), the two ports seen one transaction at a time (R20), and the
state after reset (R34). Plain data throughout. -/

namespace Sys2Proof.Machine

/-- PMCORE has no fault: "Errors are values, not model faults" (60_exceptions.md R144), and it has no trap
(R131). No constructor, so no meaning can raise one (log entry 20). -/
inductive Fault where
  deriving DecidableEq, Repr

/-- Why the model gives no meaning. -/
inductive Refusal where
  /-- An instruction without a meaning; raised by an arm of `exec` alone. Safe: nothing can be proved of it. No
  arm raises it: every instruction has its meaning. -/
  | notModelled (mnemonic : String)
  deriving DecidableEq, Repr

/-- The error codes of 60_exceptions.md R125. Codes 6 and 7 are never produced (I10) and have no name. -/
inductive ErrCode where
  | ok | invalidRegisterCount | invalidAddress | invalidFrame | illegalCommand | notReady
  deriving DecidableEq, Repr

/-- One response: `rsp_err` and `rsp_data` (R13, R20). -/
structure Response where
  err : ErrCode
  data : Word
  deriving DecidableEq, Repr

/-- The frame codec's state elements (R23). -/
structure Codec where
  /-- `CRC`, the running CRC (R24). -/
  crc : Half
  /-- `H1`, the value `CRC` had before the most recent CRCFEED (R25). -/
  h1 : Half
  /-- `H2`, the value `CRC` had before the CRCFEED before that (R25). -/
  h2 : Half
  /-- `T0`, the last byte fed but one (R26). -/
  t0 : Byte
  /-- `T1`, the last byte fed (R26). -/
  t1 : Byte
  /-- `FILL`, the count of bytes fed, saturating at 2: "It takes only the values 0, 1 and 2" (R27; log entry 5). -/
  fill : Fin 3
  deriving DecidableEq, Repr

/-- The six output latches (R30). -/
structure Latches where
  vraw : Half
  iraw : Word
  praw : Word
  eraw : Word
  fraw : Half
  pfraw : Half
  deriving DecidableEq, Repr

/-- The register decoder's state elements (R23). -/
structure Decoder where
  /-- `RB[0..9]`, the register block (R28). -/
  rb : Vector Half 10
  /-- `RBN`, the count of loads, saturating at 15 (R29). -/
  rbn : Fin 16
  /-- `VRAW`, `IRAW`, `PRAW`, `ERAW`, `FRAW`, `PFRAW` (R30). -/
  latches : Latches
  /-- `DV`, decoded valid (R31). -/
  dv : Bool
  deriving DecidableEq, Repr

/-- What the host does next (70_reset_and_hazards.md R149, R145, R146, R154; log entries 1 and 8). -/
inductive HostEvent where
  /-- Offers a command word and captures its response (R20). -/
  | command (w : Word)
  /-- Offers a command word and fails to capture its response (R154). -/
  | missed (w : Word)
  /-- Asserts reset while no command is in progress (R145). -/
  | reset
  /-- Offers a command word and asserts reset before its response has been presented (R146). -/
  | abandoned (w : Word)
  deriving DecidableEq, Repr

/-- The machine: the architectural state elements of R23 (`codec` and `dec`, which share nothing, R38), the
response port, and the host's side of the ports. -/
structure State where
  codec : Codec
  dec : Decoder
  /-- The response the last step presented; `none` is `rsp_valid` = 0 (R20; log entry 7). -/
  rsp : Option Response
  /-- The responses the host has captured in this run, in acceptance order (R153; log entry 7). -/
  captured : List Response
  /-- What the host will do from now on (log entry 1). -/
  pending : List HostEvent
  deriving DecidableEq, Repr

/-- The machine right after reset (R34, R145). `T0`, `T1`, `RB[0..9]` and the latches are "unspecified" there; the
zeros are the model's (DESIGN CHOICE, log entries 2, 3, 4). -/
def State.reset : State where
  codec := { crc := 0xFFFF#16, h1 := 0xFFFF#16, h2 := 0xFFFF#16, t0 := 0#8, t1 := 0#8, fill := 0 }
  dec :=
    { rb := Vector.replicate 10 0#16
      rbn := 0
      latches := { vraw := 0#16, iraw := 0#32, praw := 0#32, eraw := 0#32, fraw := 0#16, pfraw := 0#16 }
      dv := false }
  rsp := none
  captured := []
  pending := []

end Sys2Proof.Machine
end

