-- ==== Sys2Proof/Machine/Ops.lean ====
section
/-! DEFINITION. The operations every meaning goes through: writing one part of the state, answering a command
(R13), and answering it with an error, which is all that an exception is on PMCORE (R14, R131). -/

namespace Sys2Proof.Machine

/-- What a step or a meaning answers. -/
abbrev Result := Host.Outcome State Fault Refusal

/-- The 3-bit number of an error code (R125). -/
def ErrCode.code : ErrCode → BitVec 3
  | .ok => 0#3
  | .invalidRegisterCount => 1#3
  | .invalidAddress => 2#3
  | .invalidFrame => 3#3
  | .illegalCommand => 4#3
  | .notReady => 5#3

/-- Write the frame codec's elements. -/
def State.withCodec (s : State) (c : Codec) : State := { s with codec := c }

/-- Write the decoder's elements. -/
def State.withDec (s : State) (d : Decoder) : State := { s with dec := d }

/-- `respond(err, data)`: place a response on the response port (R13). -/
def State.respond (s : State) (err : ErrCode) (data : Word) : State := { s with rsp := some { err, data } }

/-- End a command that did what its rule says: `respond(OK, data)` (R13, R125). -/
def answer (s : State) (data : Word) : Result := .next (s.respond .ok data)

/-- `raise E`: `respond(E, 0)` "with no state written by that command" (R14). The one form an exception takes here:
no trap is entered and nothing is saved (R131), and no return from it exists (R132). -/
def raise (s : State) (err : ErrCode) : Result := .next (s.respond err 0#32)

/-- The answer to a word that `decode` maps to `Illegal` (R127). -/
def illegalCommand (s : State) : Result := raise s .illegalCommand

/-- The host captures the presented response, if one is presented (R20, R149, R153). -/
def State.capture (s : State) : State := { s with captured := s.captured ++ s.rsp.toList }

/-- The host offers nothing: no response is presented and no state element changes (R20; log
entry 6). -/
def State.idle (s : State) : State := { s with rsp := none }

/-- "Reset is one step that replaces the whole state with the reset state" (R145). What the host does afterwards is
not PMCORE's state and stays; a new run starts, with nothing captured (R153; log entry 8). -/
def State.doReset (s : State) : State := { State.reset with pending := s.pending }

end Sys2Proof.Machine
end

