-- ==== Sys2Proof/Machine/Operands.lean ====
section
/-! DEFINITION. What the commands compute: the CRC step and its fold (41_frame_codec.md R100, R101), the trailer
bytes (20_memory.md R41), the register-pair assembly and the raw fields (40_decoder.md R76, R78), and the
fixed-point scaler (R77, R84). -/

namespace Sys2Proof.Machine

/-- One of the eight shift steps of R100: "if the low bit of `crc` is set, shift `crc` right by 1 and XOR with
`0xA001`; otherwise just shift right by 1". -/
def shiftStep (c : Half) : Half :=
  if c.getLsbD 0 then (c >>> 1) ^^^ Config.crcPoly else c >>> 1

/-- `n` shift steps. -/
def shiftSteps : Nat → Half → Half
  | 0, c => c
  | n + 1, c => shiftSteps n (shiftStep c)

/-- `crcByte(c, b)` (R100): XOR the byte into the low byte, then eight shift steps. -/
def crcByte (c : Half) (b : Byte) : Half := shiftSteps 8 (c ^^^ b.setWidth 16)

/-- The fold of `crcByte` over a byte sequence, from a given CRC value (R101). -/
def crcFold (c : Half) (s : List Byte) : Half := s.foldl crcByte c

/-- `crc16(s)` (R101). -/
def crc16 (s : List Byte) : Half := crcFold Config.crcInit s

/-- `crc AND 0xFF`, the trailer byte sent first (R41, R106). -/
def crcLow (c : Half) : Byte := c.extractLsb' 0 8

/-- `(crc >> 8) AND 0xFF`, the trailer byte sent second (R41, R106). -/
def crcHigh (c : Half) : Byte := c.extractLsb' 8 8

/-- The trailer byte that an index selects (R61, R106). -/
def trailerByte (k : TrailerByte) (c : Half) : Byte :=
  match k with
  | .lo => crcLow c
  | .hi => crcHigh c

/-- Two trailer bytes read little-endian, `{second, first}` (R41, R107). -/
def trailerValue (first second : Byte) : Half := second ++ first

/-- `word32(hi, lo)` = `{hi, lo}` (R76, R42). -/
def word32 (hi lo : Half) : Word := hi ++ lo

/-- `rawFields(RB)` (R78, R49). `RB[9]` is not read (R80). -/
def rawFields (rb : Vector Half 10) : Latches where
  vraw := rb[0]
  iraw := word32 rb[1] rb[2]
  praw := word32 rb[3] rb[4]
  eraw := word32 rb[5] rb[6]
  fraw := rb[7]
  pfraw := rb[8]

/-- The latch that a FIELD reads, zero-extended to the response width (R77, R85, R46). -/
def Latches.raw (l : Latches) : Field → Word
  | .volt => l.vraw.setWidth 32
  | .curr => l.iraw
  | .pow => l.praw
  | .energy => l.eraw
  | .freq => l.fraw.setWidth 32
  | .pf => l.pfraw.setWidth 32

/-- d(FIELD), the divisor (R77). -/
def divisor : Field → Word
  | .volt => 10#32
  | .curr => 1000#32
  | .pow => 10#32
  | .energy => 1#32
  | .freq => 10#32
  | .pf => 100#32

/-- digits(FIELD), the number of fraction digits (R77). -/
def digits : Field → Nat
  | .volt => 1
  | .curr => 3
  | .pow => 1
  | .energy => 0
  | .freq => 1
  | .pf => 2

/-- `scale(raw, d, VIEW)`, the fixed-point scaler (R84): unsigned quotient and remainder (R11). -/
def scale (raw d : Word) : View → Word
  | .raw => raw
  | .int => raw / d
  | .frac => raw % d
  | .div => d

/-- `1 <= A and A <= 247` (R108). -/
def addressInRange (a : Half) : Bool := Config.addrMin ≤ a.toNat && a.toNat ≤ Config.addrMax

end Sys2Proof.Machine
end

