-- ==== Sys2Proof/Machine/Flags.lean ====
section
/-! DEFINITION. The status bits of PMCORE (10_state.md R32): the two saturating counts FILL and RBN, and the checks
that read FILL, RBN and DV. -/

namespace Sys2Proof.Machine

/-- `(S.FILL == 2) ? 2 : S.FILL + 1` (R27, R104). -/
def bumpFill (f : Fin 3) : Fin 3 := if f = 2 then 2 else f + 1

/-- `(S.RBN == 15) ? 15 : S.RBN + 1` (R29, R82). -/
def bumpRbn (n : Fin 16) : Fin 16 := if n = 15 then 15 else n + 1

/-- What FRMCHK finds (R107, C3): too short, CRC mismatch, or valid. -/
inductive FrameVerdict where
  | short | mismatch | valid
  deriving DecidableEq, Repr

/-- FRMCHK's checks in their order: length before CRC mismatch (R107, R129). -/
def frameVerdict (c : Codec) : FrameVerdict :=
  if c.fill < 2 then .short
  else if c.h2 = trailerValue c.t0 c.t1 then .valid
  else .mismatch

/-- The error code of a verdict (R107). -/
def FrameVerdict.err : FrameVerdict → ErrCode
  | .short => .invalidFrame
  | .mismatch => .invalidFrame
  | .valid => .ok

/-- The data of a verdict: bit 0 VALID, bit 1 SHORT (R107). -/
def FrameVerdict.data : FrameVerdict → Word
  | .short => 2#32
  | .mismatch => 0#32
  | .valid => 1#32

/-- `RBN` = 10: "exactly ten registers loaded" (R29, R83). -/
def blockComplete (d : Decoder) : Bool := d.rbn.val == Config.nreg

end Sys2Proof.Machine
end

