-- ==== Sys2Proof/Machine/FrameCodec.lean ====
section
/-! DEFINITION. The frame codec family (41_frame_codec.md R103 to R108): CRCINIT, CRCFEED, CRCGET, FRMTAIL, FRMCHK,
ADDRCHK. Every read sees the state before the command (R12). -/

namespace Sys2Proof.Machine

/-- The codec after CRCINIT (R103). -/
def codecStart : Codec where
  crc := Config.crcInit
  h1 := Config.crcInit
  h2 := Config.crcInit
  t0 := 0#8
  t1 := 0#8
  fill := 0

/-- The codec after one more byte (R104). -/
def feedByte (c : Codec) (b : Byte) : Codec where
  h2 := c.h1
  h1 := c.crc
  crc := crcByte c.crc b
  t0 := c.t1
  t1 := b
  fill := bumpFill c.fill

/-- CRCINIT (R103). -/
def execCrcInit (s : State) : Result := answer (s.withCodec codecStart) 0#32

/-- CRCFEED (R104). -/
def execCrcFeed (b : Byte) (s : State) : Result := answer (s.withCodec (feedByte s.codec b)) 0#32

/-- CRCGET (R105). -/
def execCrcGet (s : State) : Result := answer s (s.codec.crc.setWidth 32)

/-- FRMTAIL (R106). -/
def execFrmTail (k : TrailerByte) (s : State) : Result := answer s ((trailerByte k s.codec.crc).setWidth 32)

/-- FRMCHK (R107). -/
def execFrmChk (s : State) : Result := .next (s.respond (frameVerdict s.codec).err (frameVerdict s.codec).data)

/-- ADDRCHK (R108). -/
def execAddrChk (a : Half) (s : State) : Result :=
  if addressInRange a then answer s 1#32 else raise s .invalidAddress

end Sys2Proof.Machine
end

