-- ==== Sys2Proof/Machine/RegisterDecoder.lean ====
section
/-! DEFINITION. The register decoder family (40_decoder.md R81 to R85): DECCLR, DECLOAD, DECRUN, DECRD. Every read
sees the state before the command (R12). -/

namespace Sys2Proof.Machine

/-- The decoder after DECCLR: `RB` and the latches keep their values (R81). -/
def clearBlock (d : Decoder) : Decoder := { d with rbn := 0, dv := false }

/-- The decoder after DECLOAD V: a load past the tenth is discarded and only counted (R82). -/
def loadRegister (d : Decoder) (v : Half) : Decoder :=
  { d with
    rb := if h : d.rbn.val < 10 then d.rb.set d.rbn.val v h else d.rb
    rbn := bumpRbn d.rbn }

/-- The decoder after a DECRUN that succeeds (R83). -/
def latchFields (d : Decoder) : Decoder := { d with latches := rawFields d.rb, dv := true }

/-- The decoder after a DECRUN that fails: the latches keep their values (R83). -/
def invalidate (d : Decoder) : Decoder := { d with dv := false }

/-- DECCLR (R81). -/
def execDecClr (s : State) : Result := answer (s.withDec (clearBlock s.dec)) 0#32

/-- DECLOAD (R82). -/
def execDecLoad (v : Half) (s : State) : Result := answer (s.withDec (loadRegister s.dec v)) 0#32

/-- DECRUN (R83). The one command whose error writes state: it clears `DV` (R130). -/
def execDecRun (s : State) : Result :=
  if blockComplete s.dec then answer (s.withDec (latchFields s.dec)) 0#32
  else .next ((s.withDec (invalidate s.dec)).respond .invalidRegisterCount 0#32)

/-- DECRD (R85). -/
def execDecRd (view : View) (field : Field) (s : State) : Result :=
  if s.dec.dv then answer s (scale (s.dec.latches.raw field) (divisor field) view)
  else raise s .notReady

end Sys2Proof.Machine
end

