-- ==== Sys2Proof/Machine/Dispatch.lean ====
section
/-! DEFINITION. The meaning of every command: one arm per constructor of `Instr`. -/

namespace Sys2Proof.Machine

def exec (i : Instr) (s : State) : Host.Outcome State Fault Refusal :=
  match i with
  | .crcInit => Sys2Proof.Machine.execCrcInit s
  | .crcFeed b => Sys2Proof.Machine.execCrcFeed b s
  | .crcGet => Sys2Proof.Machine.execCrcGet s
  | .frmTail k => Sys2Proof.Machine.execFrmTail k s
  | .frmChk => Sys2Proof.Machine.execFrmChk s
  | .decClr => Sys2Proof.Machine.execDecClr s
  | .decLoad v => Sys2Proof.Machine.execDecLoad v s
  | .decRun => Sys2Proof.Machine.execDecRun s
  | .decRd view field => Sys2Proof.Machine.execDecRd view field s
  | .addrChk a => Sys2Proof.Machine.execAddrChk a s

end Sys2Proof.Machine
end

