-- ==== Sys2Proof/Machine/Transact.lean ====
section
/-! DEFINITION. One transaction at the ports: a command word is decoded, performed and answered as one atomic step
(20_memory.md R47, 70_reset_and_hazards.md R152), and the other things a host can do (R145, R146, R154). -/

namespace Sys2Proof.Machine

/-- An accepted command word: perform the command it decodes to, or answer ILLEGAL_COMMAND (R65, R127, R129). -/
def accept (w : Word) (s : State) : Result :=
  match decode w with
  | .command i => exec i s
  | .illegal _ => illegalCommand s

/-- The host captures the response of the step, if the step answers a next state (R149, R153). -/
def captureNext : Result → Result
  | .next t => .next t.capture
  | .fault r => .fault r
  | .refused r => .refused r

/-- What one host event does. A missed response leaves the command performed and is not captured (R154); a command
abandoned by reset gives no response, and "the state after reset is the reset state whatever the command had
done" (R146). -/
def serve (e : HostEvent) (s : State) : Result :=
  match e with
  | .command w => captureNext (accept w s)
  | .missed w => accept w s
  | .reset => .next s.doReset
  | .abandoned _ => .next s.doReset

end Sys2Proof.Machine
end

