-- ==== Sys2Proof/Machine/Step.lean ====
section
/-! DEFINITION. One step of the machine: the next thing the host does (log entry 1). -/

namespace Sys2Proof.Machine

/-- One step: serve the host's next event; with none offered, PMCORE waits and nothing changes (R20, R155). -/
def step (s : State) : Host.Outcome State Fault Refusal :=
  match s.pending with
  | [] => .next s.idle
  | e :: rest => serve e { s with pending := rest }

/-- The host offers an opcode-table word as its very next command (log entry 19). -/
def State.withFetchWord (s : State) (nbits w : Nat) : State :=
  { s with pending := .command (tableWord nbits w) :: s.pending }

end Sys2Proof.Machine
end

