-- ==== Sys2Proof/Machine/Sequence.lean ====
section
/-! DEFINITION. Sequences of commands: the pseudo-instructions of 30_encoding.md R70, and a run of the machine over
what the host does (70_reset_and_hazards.md R153). -/

namespace Sys2Proof.Machine

/-- The expansion of a pseudo-instruction (R70). -/
def expand : Pseudo → List Instr
  | .crcFeeds b bs => (b :: bs).map .crcFeed
  | .crcCompute bs => .crcInit :: bs.map .crcFeed ++ [.crcGet]
  | .frmBuild bs => .crcInit :: bs.map .crcFeed ++ [.frmTail .lo, .frmTail .hi]
  | .frmValidate bs => .crcInit :: bs.map .crcFeed ++ [.frmChk]
  | .decBlock rs => .decClr :: rs.map .decLoad ++ [.decRun]
  | .decAll view =>
    [.decRd view .volt, .decRd view .curr, .decRd view .pow, .decRd view .energy, .decRd view .freq, .decRd view .pf]

/-- `n` steps, stopping where a step gives no next state. -/
def runSteps : Nat → State → Result
  | 0, s => .next s
  | n + 1, s =>
    match step s with
    | .next t => runSteps n t
    | .fault r => .fault r
    | .refused r => .refused r

/-- The host does these things next, before what it was going to do. -/
def State.offer (s : State) (es : List HostEvent) : State := { s with pending := es ++ s.pending }

/-- A command, offered and its response captured (R149). -/
def offered (i : Instr) : HostEvent := .command (encode i)

/-- The machine after the host has done all of `es`, one step each. -/
def serveAll (es : List HostEvent) (s : State) : Result := runSteps es.length (s.offer es)

/-- The machine after the host has offered the words of these commands in order and captured every response. -/
def perform (is : List Instr) (s : State) : Result := serveAll (is.map offered) s

/-- The response of a command that has no result (R125). -/
def okay : Response := { err := .ok, data := 0#32 }

end Sys2Proof.Machine
end

