-- ==== Sys2Proof/Machine/Source.lean ====
section
/-! DEFINITION. The functions of the source that PMCORE's command sequences realise (00_scope.md R3): computeCRC16
is `crc16` (41_frame_codec.md R113); buildFrame (R114), validateFrame (R115), the Register Decoder's decode
(40_decoder.md R77, R89) as exact rationals (R84), and the decimal reading of a field (R86). -/

namespace Sys2Proof.Source

open Sys2Proof.Machine

/-- `buildFrame(p)` = p ++ [crc & 0xFF, (crc >> 8) & 0xFF] (R106, R114). -/
def buildFrame (p : List Byte) : List Byte := p ++ [crcLow (crc16 p), crcHigh (crc16 p)]

/-- `validateFrame(f)`: false if the frame is shorter than 2 bytes; otherwise whether the CRC over all bytes except
the last two is f[n-2] + 256 * f[n-1] (R115). -/
def validateFrame (f : List Byte) : Bool :=
  match f.reverse with
  | hi :: lo :: payload => (crc16 payload.reverse).toNat == lo.toNat + 256 * hi.toNat
  | [_] => false
  | [] => false

/-- The decoder's output record (00_scope.md glossary; R77). "The Measurement field equals the rational number
`raw / d` exactly" (R84; log entry 18). -/
structure Measurement where
  voltage : Rat
  current : Rat
  power : Rat
  energy : Rat
  frequency : Rat
  powerFactor : Rat
  deriving DecidableEq, Repr

/-- `(high << 16) | low`, the source's formula for a register pair (R42, R77). -/
def pair (high low : Half) : Nat := (high.toNat <<< 16) ||| low.toNat

/-- `decode(registers)`: it "fails with `InvalidRegisterCount` when the input length ≠ 10" (R83, R89); the formulas
are the source's, R77. -/
def decode (regs : List Half) : Option Measurement :=
  match regs with
  | [r0, r1, r2, r3, r4, r5, r6, r7, r8, _] =>
    some
      { voltage := (r0.toNat : Rat) / 10
        current := (pair r1 r2 : Rat) / 1000
        power := (pair r3 r4 : Rat) / 10
        energy := (pair r5 r6 : Rat)
        frequency := (r7.toNat : Rat) / 10
        powerFactor := (r8.toNat : Rat) / 100 }
  | _ => none

/-- The Measurement field that FIELD names (R77). -/
def Measurement.field (m : Measurement) : Field → Rat
  | .volt => m.voltage
  | .curr => m.current
  | .pow => m.power
  | .energy => m.energy
  | .freq => m.frequency
  | .pf => m.powerFactor

/-- The last `n` decimal digits of a number, leading zeros kept. -/
def lastDigits : Nat → Nat → List Char
  | 0, _ => []
  | n + 1, v => lastDigits n (v / 10) ++ [Char.ofNat (48 + v % 10)]

/-- The decimal digits of a number without leading zeros, for numbers of at most `fuel` + 1 digits. -/
def decimalDigits : Nat → Nat → List Char
  | 0, v => [Char.ofNat (48 + v % 10)]
  | fuel + 1, v =>
    if v < 10 then [Char.ofNat (48 + v)] else decimalDigits fuel (v / 10) ++ [Char.ofNat (48 + v % 10)]

/-- The decimal text of a 32-bit value: at most ten digits. -/
def decimal (v : Nat) : List Char := decimalDigits 9 v

/-- The decimal reading of a field (R86): INT, a point, and FRAC with exactly digits(FIELD) digits; energy is INT
alone. The host's, not PMCORE's (00_scope.md R7). -/
def reading (raw : Word) (f : Field) : List Char :=
  decimal (scale raw (divisor f) .int).toNat ++
    match f with
    | .energy => []
    | .volt | .curr | .pow | .freq | .pf => '.' :: lastDigits (digits f) (scale raw (divisor f) .frac).toNat

end Sys2Proof.Source
end

