-- ==== Sys2Proof/Machine/Assembler.lean ====
section
/-! DEFINITION. The assembler syntax of 30_encoding.md R69 and R70, and the disassembly of R71. Not part of the
hardware (92_eei_decisions.md D21): no step reads it. The layout of a line (blanks, commas) is the model's (log
entry 17). -/

namespace Sys2Proof.Assembler

open Sys2Proof.Machine

/-- The value of a decimal or hexadecimal digit, in either case. -/
def digitValue (c : Char) : Option Nat :=
  if '0'.toNat ≤ c.toNat ∧ c.toNat ≤ '9'.toNat then some (c.toNat - '0'.toNat)
  else if 'a'.toNat ≤ c.toNat ∧ c.toNat ≤ 'f'.toNat then some (c.toNat - 'a'.toNat + 10)
  else if 'A'.toNat ≤ c.toNat ∧ c.toNat ≤ 'F'.toNat then some (c.toNat - 'A'.toNat + 10)
  else none

/-- The number that digits of a base spell after a value read so far. -/
def readDigits (base : Nat) : Nat → List Char → Option Nat
  | acc, [] => some acc
  | acc, c :: cs =>
    match digitValue c with
    | some d => if d < base then readDigits base (base * acc + d) cs else none
    | none => none

/-- "A number is decimal or `0x`-prefixed hexadecimal" (R69). -/
def number : List Char → Option Nat
  | [] => none
  | '0' :: 'x' :: [] => none
  | '0' :: 'x' :: d :: ds => readDigits 16 0 (d :: ds)
  | d :: ds => readDigits 10 0 (d :: ds)

/-- A FRMTAIL index: "k in {0, 1}, or `lo` for 0 and `hi` for 1" (R69). -/
def trailerOperand (t : List Char) : Option Nat :=
  if t = "lo".toList then some 0 else if t = "hi".toList then some 1 else number t

/-- The name of a DECRD view (R69). -/
def viewName : View → List Char
  | .raw => "raw".toList
  | .int => "int".toList
  | .frac => "frac".toList
  | .div => "div".toList

/-- A DECRD view by its name (R69). -/
def viewOperand (t : List Char) : Option View :=
  [View.raw, .int, .frac, .div].find? fun v => viewName v == t

/-- The name of a DECRD field (R69). -/
def fieldName : Field → List Char
  | .volt => "volt".toList
  | .curr => "curr".toList
  | .pow => "pow".toList
  | .energy => "energy".toList
  | .freq => "freq".toList
  | .pf => "pf".toList

/-- A DECRD field by its name (R69). -/
def fieldOperand (t : List Char) : Option Field :=
  [Field.volt, .curr, .pow, .energy, .freq, .pf].find? fun f => fieldName f == t

/-- A fed byte as an operand: a number in 0..255 (R69). -/
def byteOperand (t : List Char) : Option Byte :=
  (number t).bind fun n => if n ≤ 255 then some (BitVec.ofNat 8 n) else none

/-- A register value as an operand: a number in 0..65535 (R69). -/
def halfOperand (t : List Char) : Option Half :=
  (number t).bind fun n => if n ≤ 65535 then some (BitVec.ofNat 16 n) else none

/-- Read every operand of a list, or fail. -/
def operands {α : Type} (read : List Char → Option α) : List (List Char) → Option (List α)
  | [] => some []
  | t :: ts => (read t).bind fun a => (operands read ts).map fun as => a :: as

/-- The command of a mnemonic (R69) and its operands, when the operands are in range (WellFormed.lean). -/
def command (m : List Char) (ops : List (List Char)) : Option Instr :=
  if m = "crc.init".toList then
    match ops with
    | [] => AsmCmd.crcInit.toInstr?
    | _ => none
  else if m = "crc.feed".toList then
    match ops with
    | [b] => (number b).bind fun n => (AsmCmd.crcFeed n).toInstr?
    | _ => none
  else if m = "crc.get".toList then
    match ops with
    | [] => AsmCmd.crcGet.toInstr?
    | _ => none
  else if m = "frm.tail".toList then
    match ops with
    | [k] => (trailerOperand k).bind fun n => (AsmCmd.frmTail n).toInstr?
    | _ => none
  else if m = "frm.chk".toList then
    match ops with
    | [] => AsmCmd.frmChk.toInstr?
    | _ => none
  else if m = "dec.clr".toList then
    match ops with
    | [] => AsmCmd.decClr.toInstr?
    | _ => none
  else if m = "dec.load".toList then
    match ops with
    | [v] => (number v).bind fun n => (AsmCmd.decLoad n).toInstr?
    | _ => none
  else if m = "dec.run".toList then
    match ops with
    | [] => AsmCmd.decRun.toInstr?
    | _ => none
  else if m = "dec.rd".toList then
    match ops with
    | [v, f] =>
      (viewOperand v).bind fun w => (fieldOperand f).bind fun g => (AsmCmd.decRd w.number g.number).toInstr?
    | _ => none
  else if m = "addr.chk".toList then
    match ops with
    | [a] => (number a).bind fun n => (AsmCmd.addrChk n).toInstr?
    | _ => none
  else none

/-- The pseudo-instruction of a mnemonic and its operands (R70). -/
def pseudo (m : List Char) (ops : List (List Char)) : Option Pseudo :=
  if m = "crc.feeds".toList then
    match ops with
    | [] => none
    | t :: ts => (byteOperand t).bind fun b => (operands byteOperand ts).map fun bs => .crcFeeds b bs
  else if m = "crc.compute".toList then (operands byteOperand ops).map .crcCompute
  else if m = "frm.build".toList then (operands byteOperand ops).map .frmBuild
  else if m = "frm.validate".toList then (operands byteOperand ops).map .frmValidate
  else if m = "dec.block".toList then (operands halfOperand ops).map .decBlock
  else if m = "dec.all".toList then
    match ops with
    | [v] => (viewOperand v).map .decAll
    | _ => none
  else none

/-- Blanks of a line. -/
def blank (c : Char) : Bool := c == ' ' || c == '\t'

/-- Drop the blanks around a piece of text. -/
def trim (t : List Char) : List Char := ((t.dropWhile blank).reverse.dropWhile blank).reverse

/-- Cut a text at its commas. -/
def cutCommas : List Char → List (List Char)
  | [] => [[]]
  | c :: cs =>
    if c = ',' then [] :: cutCommas cs
    else
      match cutCommas cs with
      | [] => [[c]]
      | t :: ts => (c :: t) :: ts

/-- The operands of a line: nothing but blanks is no operand; otherwise the pieces between commas. -/
def operandTexts (t : List Char) : List (List Char) :=
  if (trim t).isEmpty then [] else (cutCommas t).map trim

/-- Assemble one line into the commands it stands for: "The mnemonic is case-insensitive" (R69), and a
pseudo-instruction gives the commands of its expansion (R70). None is an assembly error. -/
def assemble (line : List Char) : Option (List Instr) :=
  let body := trim line
  let m := (body.takeWhile fun c => !blank c).map Char.toLower
  let ops := operandTexts (body.dropWhile fun c => !blank c)
  match command m ops with
  | some i => some [i]
  | none => (pseudo m ops).map expand

/-- The words of an assembly line (R71). -/
def assembleWords (line : List Char) : Option (List Word) := (assemble line).map fun is => is.map encode

/-- A command in the syntax of R69. Where R69 allows several spellings and R71 does not say which one a disassembly
has, the choice is the model's (log entry 17): numbers in decimal, the FRMTAIL index as `lo` or `hi`, mnemonics in
lower case, one blank after a mnemonic and after a comma. -/
def text : Instr → List Char
  | .crcInit => "crc.init".toList
  | .crcFeed b => "crc.feed ".toList ++ Source.decimal b.toNat
  | .crcGet => "crc.get".toList
  | .frmTail .lo => "frm.tail lo".toList
  | .frmTail .hi => "frm.tail hi".toList
  | .frmChk => "frm.chk".toList
  | .decClr => "dec.clr".toList
  | .decLoad v => "dec.load ".toList ++ Source.decimal v.toNat
  | .decRun => "dec.run".toList
  | .decRd v f => "dec.rd ".toList ++ viewName v ++ ", ".toList ++ fieldName f
  | .addrChk a => "addr.chk ".toList ++ Source.decimal a.toNat

/-- "Disassembly is `decode` of rule R65 followed by the syntax of rule R69" (R71). -/
def disassemble (w : Word) : Option (List Char) := (Sys2Proof.decode w).toOption.map text

end Sys2Proof.Assembler
end

