-- ==== Sys2Proof/Machine/Port.lean ====
section
/-! DEFINITION. The ports cycle by cycle (10_state.md R20, 70_reset_and_hazards.md R145, R146, R155): a finer machine
over the same state, beside the transaction-level step, which has no cycles (R152). Its latencies are the OPEN
parameters of 00_scope.md R8, free values of Config. -/

namespace Sys2Proof.Machine

/-- What PMCORE is doing in a cycle: recovering from reset with `left` cycles to come, ready, or busy with an
accepted word whose response is `left` cycles away. At most one command is in progress (R20). -/
inductive Phase where
  | recovering (left : Nat)
  | idle
  | busy (w : Word) (left : Nat)
  deriving DecidableEq, Repr

/-- The block at the start of a cycle. -/
structure Port where
  core : State
  phase : Phase
  deriving DecidableEq, Repr

/-- The inputs of one cycle (R20). -/
structure PortIn where
  rstN : Bool
  cmdValid : Bool
  cmd : Word
  deriving DecidableEq, Repr

/-- The outputs of one cycle (R20): `rsp` is none exactly when `rsp_valid` = 0, and then `rsp_err` and `rsp_data`
have no value (log entry 16). -/
structure PortOut where
  cmdReady : Bool
  rsp : Option Response
  deriving DecidableEq, Repr

/-- P_LATENCY of a word, at least 1 (R8, R152; log entry 12). -/
def latency (w : Word) : Nat := Config.extraLatency ((decode w).toOption.map Instr.mnemonic) + 1

/-- The phase in the first cycle after `rst_n` returns to 1: P_RESET_RECOVERY cycles are still to come (R145). -/
def phaseAfterReset : Phase :=
  match Config.resetRecovery with
  | 0 => .idle
  | n + 1 => .recovering n

/-- The block held in reset (R145). -/
def Port.inReset : Port where
  core := State.reset
  phase := phaseAfterReset

/-- The state an accepted word leaves, with its response on the response port. `accept` always answers a next
state, so the last two cases do not arise. -/
def performed (w : Word) (s : State) : State :=
  match accept w s with
  | .next t => t
  | .fault _ => s
  | .refused _ => s

/-- "A command is accepted in a cycle where `cmd_valid` = 1 and `cmd_ready` = 1"; its response comes P_LATENCY
cycles later (R20). -/
def takeOffer (ready : Bool) (i : PortIn) : Phase :=
  if ready && i.cmdValid then .busy i.cmd (latency i.cmd - 1) else .idle

/-- One cycle. Reset wins over everything (R134, R146). The state changes of a command land in the cycle that
presents its response (log entry 15). -/
def cycle (i : PortIn) (p : Port) : Port × PortOut :=
  if i.rstN then
    match p.phase with
    | .recovering 0 => ({ p with phase := .idle }, { cmdReady := false, rsp := none })
    | .recovering (n + 1) => ({ p with phase := .recovering n }, { cmdReady := false, rsp := none })
    | .idle => ({ p with phase := takeOffer true i }, { cmdReady := true, rsp := none })
    | .busy w (n + 1) => ({ p with phase := .busy w n }, { cmdReady := false, rsp := none })
    | .busy w 0 =>
      ({ core := performed w p.core, phase := takeOffer Config.readyWhilePresenting i },
        { cmdReady := Config.readyWhilePresenting, rsp := (performed w p.core).rsp })
  else (Port.inReset, { cmdReady := false, rsp := none })

/-- The block and its outputs after the inputs of a sequence of cycles. -/
def cycles : List PortIn → Port → Port × List PortOut
  | [], p => (p, [])
  | i :: is, p =>
    let q := cycle i p
    let r := cycles is q.1
    (r.1, q.2 :: r.2)

/-- The words accepted in a sequence of cycles, in order: those offered while `cmd_ready` = 1 (R20). -/
def acceptedWords : List PortIn → List PortOut → List Word
  | i :: is, o :: os => if i.cmdValid && o.cmdReady then i.cmd :: acceptedWords is os else acceptedWords is os
  | [], _ => []
  | _ :: _, [] => []

/-- The responses presented in a sequence of cycles, in order (R20, R50). -/
def responses (os : List PortOut) : List Response := os.filterMap fun o => o.rsp

end Sys2Proof.Machine
end

