-- ==== Sys2Proof/Safety.lean ====
section
/-! DEFINITION. The terms claims are made in: what a safe step is, the history of a run that the state elements
reflect (41_frame_codec.md R109, 10_state.md R29, R31), the invariant of the frame codec, and which states no
response can tell apart (R35). -/

namespace Sys2Proof.Machine

/-- A step is safe when it answers a next state: PMCORE never stops (60_exceptions.md R131, R144). -/
def SafeStep (s : State) : Prop := ∃ t, step s = .next t

/-- The codes a command can answer (R126). -/
def possibleCodes : Mnemonic → List ErrCode
  | .crcInit | .crcFeed | .crcGet | .frmTail | .decClr | .decLoad => [.ok]
  | .frmChk => [.ok, .invalidFrame]
  | .decRun => [.ok, .invalidRegisterCount]
  | .decRd => [.ok, .notReady]
  | .addrChk => [.ok, .invalidAddress]

/-- The commands of the register decoder (R38). -/
def isDecoderCommand : Instr → Bool
  | .decClr | .decLoad _ | .decRun | .decRd _ _ => true
  | .crcInit | .crcFeed _ | .crcGet | .frmTail _ | .frmChk | .addrChk _ => false

/-- The commands that write no state element (R48). -/
def isReadOnly : Instr → Bool
  | .crcGet | .frmTail _ | .frmChk | .decRd _ _ | .addrChk _ => true
  | .crcInit | .crcFeed _ | .decClr | .decLoad _ | .decRun => false

/-! ### The history of the frame codec (R109) -/

/-- The bytes fed since the last CRCINIT, after one more command. -/
def fedAfterInstr (l : List Byte) : Instr → List Byte
  | .crcInit => []
  | .crcFeed b => l ++ [b]
  | .crcGet | .frmTail _ | .frmChk | .decClr | .decLoad _ | .decRun | .decRd _ _ | .addrChk _ => l

/-- The bytes fed since the last CRCINIT or reset, after one more host event. -/
def fedAfterEvent (l : List Byte) : HostEvent → List Byte
  | .command w | .missed w =>
    match decode w with
    | .command i => fedAfterInstr l i
    | .illegal _ => l
  | .reset | .abandoned _ => []

/-- The codec holds what R109 says after the byte sequence `l`. -/
structure Codec.Reflects (c : Codec) (l : List Byte) : Prop where
  crc : c.crc = crc16 l
  fill : c.fill.val = min l.length 2
  h1 : c.h1 = crc16 (l.take (l.length - 1))
  h2 : c.h2 = crc16 (l.take (l.length - 2))
  t1 : 1 ≤ l.length → l[l.length - 1]? = some c.t1
  t0 : 2 ≤ l.length → l[l.length - 2]? = some c.t0

/-- The relation that every codec state of a run has between CRC and its history, whatever was fed. -/
abbrev Codec.Coherent (c : Codec) : Prop :=
  (c.fill = 0 → c.crc = Config.crcInit ∧ c.h1 = Config.crcInit ∧ c.h2 = Config.crcInit) ∧
  (c.fill = 1 → c.crc = crcByte c.h1 c.t1 ∧ c.h1 = Config.crcInit ∧ c.h2 = Config.crcInit) ∧
  (c.fill = 2 → c.crc = crcByte c.h1 c.t1 ∧ c.h1 = crcByte c.h2 c.t0)

/-- FRMCHK's checks as R118 allows an implementation to make them: "`FILL == 2 and CRC == 0x0000` without keeping
`H1`, `H2`, `T0` and `T1`". -/
def residueVerdict (c : Codec) : FrameVerdict :=
  if c.fill < 2 then .short else if c.crc = 0#16 then .valid else .mismatch

/-! ### The history of the register decoder (R29, R31) -/

/-- The values of the DECLOADs since the last DECCLR or reset, and the block of the last DECRUN if that DECRUN
succeeded and no DECCLR came since. -/
structure BlockHistory where
  loads : List Half
  decoded : Option (List Half)
  deriving DecidableEq, Repr

/-- The history right after reset. -/
def BlockHistory.start : BlockHistory where
  loads := []
  decoded := none

/-- The history after one more command. -/
def blockAfterInstr (h : BlockHistory) : Instr → BlockHistory
  | .decClr => BlockHistory.start
  | .decLoad v => { h with loads := h.loads ++ [v] }
  | .decRun => { h with decoded := if h.loads.length = 10 then some h.loads else none }
  | .crcInit | .crcFeed _ | .crcGet | .frmTail _ | .frmChk | .decRd _ _ | .addrChk _ => h

/-- The history after one more host event. -/
def blockAfterEvent (h : BlockHistory) : HostEvent → BlockHistory
  | .command w | .missed w =>
    match decode w with
    | .command i => blockAfterInstr h i
    | .illegal _ => h
  | .reset | .abandoned _ => BlockHistory.start

/-- A list of registers as a block; the list's own length decides which of them count. -/
def blockOf (regs : List Half) : Vector Half 10 := Vector.ofFn fun i => regs.getD i.val 0#16

/-- The decoder holds what R28 to R31 say after the history `h`. -/
structure Decoder.Reflects (d : Decoder) (h : BlockHistory) : Prop where
  rbn : d.rbn.val = min h.loads.length 15
  rb : ∀ (i : Nat) (hi : i < 10) (v : Half), h.loads[i]? = some v → d.rb[i] = v
  dv : d.dv = h.decoded.isSome
  latches : ∀ regs, h.decoded = some regs → d.latches = rawFields (blockOf regs)

/-! ### States that no response can tell apart (R34, R35) -/

/-- Equal in every codec element but those that are unspecified: `T1` before the first byte, `T0` before the
second. -/
structure Codec.Agree (c c' : Codec) : Prop where
  crc : c.crc = c'.crc
  h1 : c.h1 = c'.h1
  h2 : c.h2 = c'.h2
  fill : c.fill = c'.fill
  t1 : c.fill ≠ 0 → c.t1 = c'.t1
  t0 : c.fill = 2 → c.t0 = c'.t0

/-- Equal in every decoder element but those that are unspecified: `RB` from index `RBN` on, and the latches while
`DV` = 0. -/
structure Decoder.Agree (d d' : Decoder) : Prop where
  rbn : d.rbn = d'.rbn
  rb : ∀ (i : Nat) (hi : i < 10), i < d.rbn.val → d.rb[i] = d'.rb[i]
  dv : d.dv = d'.dv
  latches : d.dv = true → d.latches = d'.latches

/-- Equal but for the unspecified elements. -/
structure State.Agree (s s' : State) : Prop where
  codec : s.codec.Agree s'.codec
  dec : s.dec.Agree s'.dec
  rsp : s.rsp = s'.rsp
  captured : s.captured = s'.captured
  pending : s.pending = s'.pending

/-- The reset state with other values in the elements that R34 leaves unspecified. -/
def State.resetWith (t0 t1 : Byte) (rb : Vector Half 10) (l : Latches) : State :=
  { State.reset with
    codec := { State.reset.codec with t0 := t0, t1 := t1 }
    dec := { State.reset.dec with rb := rb, latches := l } }

/-- The state with another value in `RB[9]` (R80). -/
def State.withRegister9 (s : State) (v : Half) : State :=
  { s with dec := { s.dec with rb := s.dec.rb.set 9 v } }

end Sys2Proof.Machine
end

