-- ==== Sys2Proof/Certificates/Slice0/Obligations.lean ====
section
/-! DEFINITION. The statements for the provers. Each docstring names the rule of spec/ that it formalises. -/

open Sys2Proof Sys2Proof.Machine

/-! ### The frame codec: results and frames -/

/-- R103: CRCINIT writes the six codec elements, answers (OK, 0) and leaves everything else. -/
def Obligations.CrcInitStartsComputation : Prop :=
  ∀ s : State, exec .crcInit s =
    .next { s with
      codec := { crc := 0xFFFF#16, h1 := 0xFFFF#16, h2 := 0xFFFF#16, t0 := 0x00#8, t1 := 0x00#8, fill := 0 }
      rsp := some { err := .ok, data := 0#32 } }

/-- R104: CRCFEED shifts the history, steps the CRC, counts the byte up to 2, answers (OK, 0), and leaves everything
outside the codec. All reads see the state before the command. -/
def Obligations.CrcFeedShiftsHistory : Prop :=
  ∀ (b : Byte) (s : State), ∃ c : Codec,
    exec (.crcFeed b) s = .next { s with codec := c, rsp := some { err := .ok, data := 0#32 } } ∧
    c.h2 = s.codec.h1 ∧ c.h1 = s.codec.crc ∧ c.crc = crcByte s.codec.crc b ∧
    c.t0 = s.codec.t1 ∧ c.t1 = b ∧ c.fill.val = if s.codec.fill.val = 2 then 2 else s.codec.fill.val + 1

/-- R100: `crcByte` XORs the byte into the low byte and then, eight times, shifts right and XORs 0xA001 if the low
bit was set; written here with the low bit as the remainder by 2. -/
def Obligations.CrcByteIsEightShiftSteps : Prop :=
  ∀ (c : Half) (b : Byte), crcByte c b =
    (List.range 8).foldl (fun (x : Half) (_ : Nat) => if x.toNat % 2 = 1 then (x >>> 1) ^^^ 0xA001#16 else x >>> 1)
      (c ^^^ BitVec.ofNat 16 b.toNat)

/-- R101: the CRC of a sequence is the fold of `crcByte` from 0xFFFF, total for every length, the empty one
included. -/
def Obligations.CrcOfSequenceIsFold : Prop :=
  crc16 [] = 0xFFFF#16 ∧ ∀ (l : List Byte) (b : Byte), crc16 (l ++ [b]) = crcByte (crc16 l) b

/-- R105: CRCGET answers CRC, zero-extended, and writes no state. -/
def Obligations.CrcGetAnswersRunningCrc : Prop :=
  ∀ s : State, exec .crcGet s =
    .next { s with rsp := some { err := .ok, data := BitVec.ofNat 32 s.codec.crc.toNat } }

/-- R106: FRMTAIL 0 answers CRC AND 0xFF, FRMTAIL 1 answers (CRC >> 8) AND 0xFF; no state is written. -/
def Obligations.FrmTailAnswersTrailerByte : Prop :=
  ∀ s : State,
    exec (.frmTail .lo) s =
      .next { s with rsp := some { err := .ok, data := BitVec.ofNat 32 (s.codec.crc.toNat % 256) } } ∧
    exec (.frmTail .hi) s =
      .next { s with rsp := some { err := .ok, data := BitVec.ofNat 32 (s.codec.crc.toNat / 256 % 256) } }

/-- R107: FRMCHK answers (INVALID_FRAME, 2) when fewer than two bytes have been fed, (OK, 1) when H2 equals the last
two bytes read little-endian, (INVALID_FRAME, 0) otherwise; no state is written. -/
def Obligations.FrmChkValidatesFedBytes : Prop :=
  ∀ s : State, exec .frmChk s = .next { s with rsp := some (
    if s.codec.fill.val < 2 then { err := .invalidFrame, data := 2#32 }
    else if s.codec.h2.toNat = s.codec.t0.toNat + 256 * s.codec.t1.toNat then { err := .ok, data := 1#32 }
    else { err := .invalidFrame, data := 0#32 }) }

/-- R108: ADDRCHK answers (OK, 1) for 1 to 247 and (INVALID_ADDRESS, 0) for every other operand; no state is
written. -/
def Obligations.AddrChkChecksRange : Prop :=
  ∀ (a : Half) (s : State), exec (.addrChk a) s = .next { s with rsp := some (
    if 1 ≤ a.toNat ∧ a.toNat ≤ 247 then { err := .ok, data := 1#32 }
    else { err := .invalidAddress, data := 0#32 }) }

/-- R119: ADDRCHK accepts exactly 247 of the 65536 operands, and rejects 0, 248 to 255 and everything above. -/
def Obligations.AddrChkAcceptsExactly247 : Prop :=
  Set.ncard {a : Half | ∀ s, exec (.addrChk a) s = .next { s with rsp := some { err := .ok, data := 1#32 } }} = 247 ∧
  ∀ (a : Half) (s : State), a = 0#16 ∨ 248 ≤ a.toNat →
    exec (.addrChk a) s = .next { s with rsp := some { err := .invalidAddress, data := 0#32 } }

/-! ### The register decoder: results and frames -/

/-- R81: DECCLR sets RBN and DV to 0, answers (OK, 0), and keeps RB, the latches and everything else. -/
def Obligations.DecClrEmptiesBlock : Prop :=
  ∀ s : State, exec .decClr s =
    .next { s with dec := { s.dec with rbn := 0, dv := false }, rsp := some { err := .ok, data := 0#32 } }

/-- R82: DECLOAD writes RB[RBN] if RBN is below 10 and nothing in RB otherwise, counts the load up to 15, answers
(OK, 0), and keeps DV, the latches and everything else. -/
def Obligations.DecLoadAppendsRegister : Prop :=
  ∀ (v : Half) (s : State), ∃ (rb : Vector Half 10) (n : Fin 16),
    exec (.decLoad v) s =
      .next { s with dec := { s.dec with rb := rb, rbn := n }, rsp := some { err := .ok, data := 0#32 } } ∧
    (∀ (i : Nat) (hi : i < 10), rb[i] = if i = s.dec.rbn.val then v else s.dec.rb[i]) ∧
    n.val = if s.dec.rbn.val = 15 then 15 else s.dec.rbn.val + 1

/-- R83 with R78: DECRUN at RBN = 10 latches the six raw fields, sets DV and answers (OK, 0); at any other RBN it
clears DV, keeps the latches and answers (INVALID_REGISTER_COUNT, 0). RB, RBN and everything else are kept. -/
def Obligations.DecRunDecodesBlock : Prop :=
  ∀ s : State,
    (s.dec.rbn = 10 → exec .decRun s = .next { s with
      dec := { s.dec with
        dv := true
        latches :=
          { vraw := s.dec.rb[0]
            iraw := BitVec.ofNat 32 (s.dec.rb[1].toNat * 65536 + s.dec.rb[2].toNat)
            praw := BitVec.ofNat 32 (s.dec.rb[3].toNat * 65536 + s.dec.rb[4].toNat)
            eraw := BitVec.ofNat 32 (s.dec.rb[5].toNat * 65536 + s.dec.rb[6].toNat)
            fraw := s.dec.rb[7]
            pfraw := s.dec.rb[8] } }
      rsp := some { err := .ok, data := 0#32 } }) ∧
    (s.dec.rbn ≠ 10 → exec .decRun s = .next { s with
      dec := { s.dec with dv := false }
      rsp := some { err := .invalidRegisterCount, data := 0#32 } })

/-- R76: `word32(hi, lo)` is `(zext_32(hi) << 16) OR zext_32(lo)` and equals hi * 65536 + lo. -/
def Obligations.Word32JoinsHighAndLow : Prop :=
  ∀ hi lo : Half, word32 hi lo = (hi.setWidth 32 <<< 16) ||| lo.setWidth 32 ∧
    (word32 hi lo).toNat = hi.toNat * 65536 + lo.toNat

/-- R85 with the field table R77 and the views R84: DECRD answers the chosen view of the chosen field when DV is
1, NOT_READY with 0 for every view when it is 0, and writes no state. -/
def Obligations.DecRdReadsView : Prop :=
  ∀ (view : View) (field : Field) (s : State),
    let raw : Nat := match field with
      | .volt => s.dec.latches.vraw.toNat
      | .curr => s.dec.latches.iraw.toNat
      | .pow => s.dec.latches.praw.toNat
      | .energy => s.dec.latches.eraw.toNat
      | .freq => s.dec.latches.fraw.toNat
      | .pf => s.dec.latches.pfraw.toNat
    let d : Nat := match field with
      | .volt => 10 | .curr => 1000 | .pow => 10 | .energy => 1 | .freq => 10 | .pf => 100
    let value : Nat := match view with
      | .raw => raw | .int => raw / d | .frac => raw % d | .div => d
    (s.dec.dv = true →
      exec (.decRd view field) s = .next { s with rsp := some { err := .ok, data := BitVec.ofNat 32 value } }) ∧
    (s.dec.dv = false →
      exec (.decRd view field) s = .next { s with rsp := some { err := .notReady, data := 0#32 } })

/-- R84 (with the digits of R77): the integer part, the fractional part and the divisor give the raw value back
exactly, as numbers and as the rational raw / d; FRAC is below d, d is never 0 and is 10 to the digits. -/
def Obligations.ScalerIsExact : Prop :=
  ∀ (raw : Word) (f : Field),
    scale raw (divisor f) .raw = raw ∧ scale raw (divisor f) .div = divisor f ∧
    (divisor f).toNat = 10 ^ digits f ∧
    raw.toNat = (scale raw (divisor f) .int).toNat * (divisor f).toNat + (scale raw (divisor f) .frac).toNat ∧
    (scale raw (divisor f) .frac).toNat < (divisor f).toNat ∧
    (raw.toNat : Rat) / (divisor f).toNat =
      (scale raw (divisor f) .int).toNat + ((scale raw (divisor f) .frac).toNat : Rat) / (divisor f).toNat

/-! ### Encoding -/

/-- R72: decoding an encoded command gives it back, and encoding a decoded word gives the word back. -/
def Obligations.EncodeDecodeInverse : Prop :=
  (∀ i : Instr, decode (encode i) = .command i) ∧ ∀ (w : Word) (i : Instr), decode w = .command i → encode i = w

/-- R65 with R63's rows by number: a word decodes to a command exactly when a row of the opcode map matches it, its
extra condition holds and the fields give that command (which words those are, command by command and operand by
operand, is `WordsOfEachCommand`); at most one row matches a word; a word with no such row is illegal. -/
def Obligations.DecodeFollowsOpcodeMap : Prop :=
  (opcodeMap.map fun r => (r.mnemonic, r.fixed.toNat, r.mask.toNat)) =
    [ (.crcInit, 0x01000000, 0xFFFFFFFF), (.crcFeed, 0x02000000, 0xFFFFFF00), (.crcGet, 0x03000000, 0xFFFFFFFF),
      (.frmTail, 0x04000000, 0xFFFEFFFF), (.frmChk, 0x05000000, 0xFFFFFFFF), (.decClr, 0x10000000, 0xFFFFFFFF),
      (.decLoad, 0x11000000, 0xFFFF0000), (.decRun, 0x12000000, 0xFFFFFFFF), (.decRd, 0x13000000, 0xFFC0FFFF),
      (.addrChk, 0x20000000, 0xFFFF0000) ] ∧
  ∀ w : Word,
    (∀ r ∈ opcodeMap, r.extra w = true ↔ (r.mnemonic = .decRd → w.toNat / 65536 % 16 ≤ 5)) ∧
    (∀ i, decode w = .command i ↔
      ∃ r ∈ opcodeMap, w &&& r.mask = r.fixed ∧ r.extra w = true ∧ commandOf r.mnemonic w = some i) ∧
    (∀ r ∈ opcodeMap, ∀ r' ∈ opcodeMap, w &&& r.mask = r.fixed → w &&& r'.mask = r'.fixed → r = r') ∧
    ((∀ r ∈ opcodeMap, ¬(w &&& r.mask = r.fixed ∧ r.extra w = true)) → ∃ why, decode w = .illegal why)

/-- R63 with the operands of R57 to R62, and R71's encoding, by number: the words of every command, for every
operand. VIEW and FIELD have the numbers of R62, K those of R61. The parts of a word share no bit, so R71's OR is a
sum. -/
def Obligations.WordsOfEachCommand : Prop :=
  ∀ (i : Instr) (w : Word),
    let n : Nat := match i with
      | .crcInit => 0x01000000
      | .crcFeed b => 0x02000000 + b.toNat
      | .crcGet => 0x03000000
      | .frmTail k => 0x04000000 + 0x10000 * (match k with | .lo => 0 | .hi => 1)
      | .frmChk => 0x05000000
      | .decClr => 0x10000000
      | .decLoad v => 0x11000000 + v.toNat
      | .decRun => 0x12000000
      | .decRd view field => 0x13000000 +
          0x100000 * (match view with | .raw => 0 | .int => 1 | .frac => 2 | .div => 3) +
          0x10000 * (match field with | .volt => 0 | .curr => 1 | .pow => 2 | .energy => 3 | .freq => 4 | .pf => 5)
      | .addrChk a => 0x20000000 + a.toNat
    (decode w = .command i ↔ w.toNat = n) ∧ (encode i).toNat = n

/-- R64 with R57, R58, R63: which words are legal, by the values of OPC, SEL and IMM. -/
def Obligations.LegalWordsByFields : Prop :=
  ∀ w : Word, legal w = true ↔
    (opcOf w ∈ [0x01#8, 0x03#8, 0x05#8, 0x10#8, 0x12#8] ∧ selOf w = 0#8 ∧ immOf w = 0#16) ∨
    (opcOf w = 0x02#8 ∧ selOf w = 0#8 ∧ (immOf w).toNat ≤ 255) ∨
    (opcOf w = 0x04#8 ∧ (selOf w).toNat ≤ 1 ∧ immOf w = 0#16) ∨
    (opcOf w ∈ [0x11#8, 0x20#8] ∧ selOf w = 0#8) ∨
    (opcOf w = 0x13#8 ∧ (selOf w).toNat / 16 ≤ 3 ∧ (selOf w).toNat % 16 ≤ 5 ∧ immOf w = 0#16)

/-- R74: there are 131359 legal words. -/
def Obligations.LegalWordCount : Prop := Set.ncard {w : Word | legal w = true} = 131359

/-- R73: the encoding examples, and the words that are illegal. -/
def Obligations.EncodingExamples : Prop :=
  decode 0x02000042#32 = .command (.crcFeed 0x42#8) ∧ decode 0x04010000#32 = .command (.frmTail .hi) ∧
  decode 0x11000898#32 = .command (.decLoad 2200#16) ∧ decode 0x13210000#32 = .command (.decRd .frac .curr) ∧
  decode 0x13350000#32 = .command (.decRd .div .pf) ∧ decode 0x2000012C#32 = .command (.addrChk 300#16) ∧
  legal 0x02000142#32 = false ∧ legal 0x04020000#32 = false ∧ legal 0x13060000#32 = false ∧
  legal 0x13400000#32 = false ∧ legal 0x00000000#32 = false

/-- R69 and R71: assembling the disassembly of a legal word gives that one word back. The layout of a line (blanks,
commas) is the model's choice (log entry 17). -/
def Obligations.AssembleDisassembly : Prop :=
  ∀ w : Word, legal w = true →
    ∃ t, Assembler.disassemble w = some t ∧ Assembler.assembleWords t = some [w]

/-! ### The step -/

/-- A step runs the decoded command (R50, R152): when the host offers a word that decodes to `i`, the step is `exec i`
with the event taken from the host's list and the response appended to the captured ones (the model's own fields,
log entries 1 and 7). -/
def Obligations.StepPerformsDecodedCommand : Prop :=
  ∀ (s : State) (w : Word) (rest : List HostEvent) (i : Instr), decode w = .command i →
    ∃ (t : State) (r : Response), exec i { s with pending := rest } = .next t ∧ t.rsp = some r ∧
      t.captured = s.captured ∧ t.pending = rest ∧
      step { s with pending := .command w :: rest } = .next { t with captured := s.captured ++ [r] }

/-- R127: an illegal word is answered with (ILLEGAL_COMMAND, 0) and writes no state element. -/
def Obligations.IllegalWordWritesNothing : Prop :=
  ∀ (s : State) (w : Word) (rest : List HostEvent), legal w = false →
    step { s with pending := .command w :: rest } =
      .next { s with
        pending := rest
        rsp := some { err := .illegalCommand, data := 0#32 }
        captured := s.captured ++ [{ err := .illegalCommand, data := 0#32 }] }

/-- Waiting (R20, R155; the model's choice, log entry 6): with nothing offered, a step presents no response and
changes nothing. -/
def Obligations.WaitingChangesNothing : Prop :=
  ∀ s : State, s.pending = [] → step s = .next { s with rsp := none }

/-- R145: a reset step leaves the values that R34 gives, whatever the state was, with no response presented. The
elements that R34 leaves unspecified are not mentioned; that a new run starts with nothing captured is the model's
choice (log entry 8). -/
def Obligations.ResetStepLeavesResetValues : Prop :=
  ∀ (s : State) (rest : List HostEvent), ∃ t, step { s with pending := .reset :: rest } = .next t ∧
    t.codec.crc = 0xFFFF#16 ∧ t.codec.h1 = 0xFFFF#16 ∧ t.codec.h2 = 0xFFFF#16 ∧ t.codec.fill = 0 ∧
    t.dec.rbn = 0 ∧ t.dec.dv = false ∧ t.rsp = none ∧ t.captured = [] ∧ t.pending = rest

/-- R146: a command that reset cuts short gives no response, and what is left is the reset state, whatever the
command and the state before. That two resets leave the same whole state rests on choices of the model: the elements
that R34 leaves unspecified take one fixed value at reset (log entries 2, 3 and 4), and a reset empties the captured
responses (log entry 8). -/
def Obligations.AbandonedCommandIsReset : Prop :=
  ∀ (s s' : State) (w : Word) (rest : List HostEvent), ∃ t,
    step { s with pending := .abandoned w :: rest } = .next t ∧ t.rsp = none ∧
    step { s' with pending := .reset :: rest } = .next t

/-- R154: a missed response leaves the command performed exactly as if the response had been captured; only the
captured responses differ (the model's own field, log entry 7). -/
def Obligations.MissedResponseStillPerforms : Prop :=
  ∀ (s : State) (w : Word) (rest : List HostEvent), ∃ (t : State) (r : Response),
    step { s with pending := .missed w :: rest } = .next t ∧ t.captured = s.captured ∧ t.rsp = some r ∧
    step { s with pending := .command w :: rest } = .next { t with captured := s.captured ++ [r] }

/-- R131, R144: from every state a step answers a next state; nothing stops PMCORE. -/
def Obligations.EveryStepIsSafe : Prop := ∀ s : State, SafeStep s

/-- R126: every command answers a next state with a response whose code is one of its row's, and an illegal word
one whose code is ILLEGAL_COMMAND. -/
def Obligations.ResponseCodesPerCommand : Prop :=
  (∀ (i : Instr) (s : State), ∃ (t : State) (r : Response),
    exec i s = .next t ∧ t.rsp = some r ∧ r.err ∈ possibleCodes i.mnemonic) ∧
  ∀ (w : Word) (s : State), legal w = false → ∃ (t : State) (r : Response),
    accept w s = .next t ∧ t.rsp = some r ∧ r.err = .illegalCommand

/-- R125: the number of each error code, so that 6 and 7 are never produced, and the data of each: 0 with every
error but INVALID_FRAME, which has 2 or 0. For every accepted word, legal or not. -/
def Obligations.ResponseNumbersAndData : Prop :=
  ErrCode.ok.code = 0#3 ∧ ErrCode.invalidRegisterCount.code = 1#3 ∧ ErrCode.invalidAddress.code = 2#3 ∧
  ErrCode.invalidFrame.code = 3#3 ∧ ErrCode.illegalCommand.code = 4#3 ∧ ErrCode.notReady.code = 5#3 ∧
  ∀ (w : Word) (s : State), ∃ (t : State) (r : Response), accept w s = .next t ∧ t.rsp = some r ∧
    r.err.code.toNat ≤ 5 ∧
    (r.err = .illegalCommand ↔ legal w = false) ∧
    (r.err = .invalidFrame → r.data = 2#32 ∨ r.data = 0#32) ∧
    (r.err ≠ .ok → r.err ≠ .invalidFrame → r.data = 0#32)

/-- The values that R34 gives for reset, at the model's reset state. -/
def Obligations.ResetStateValues : Prop :=
  State.reset.codec.crc = 0xFFFF#16 ∧ State.reset.codec.h1 = 0xFFFF#16 ∧ State.reset.codec.h2 = 0xFFFF#16 ∧
  State.reset.codec.fill = 0 ∧ State.reset.dec.rbn = 0 ∧ State.reset.dec.dv = false ∧ State.reset.rsp = none

/-- R148: the state after CRCINIT and DECCLR is the reset state, up to the elements no response can show. -/
def Obligations.ResetEqualsInitAndClear : Prop :=
  ∀ s : State, ∃ t, perform [.crcInit, .decClr] s = .next t ∧
    t.codec.Agree State.reset.codec ∧ t.dec.Agree State.reset.dec

/-! ### Independence, read-only and idempotent commands -/

/-- R38: a decoder command neither writes the codec's elements nor depends on them, and every other command neither
writes the decoder's elements nor depends on them. -/
def Obligations.PartsAreIndependent : Prop :=
  ∀ (i : Instr) (s : State), ∃ t, exec i s = .next t ∧
    (isDecoderCommand i = true → t.codec = s.codec ∧
      ∀ c : Codec, exec i { s with codec := c } = .next { t with codec := c }) ∧
    (isDecoderCommand i = false → t.dec = s.dec ∧
      ∀ d : Decoder, exec i { s with dec := d } = .next { t with dec := d })

/-- R48, first sentence: CRCGET, FRMTAIL, FRMCHK, DECRD and ADDRCHK write nothing but the response, and repeating
one gives the same response and the same state. -/
def Obligations.ReadOnlyCommandsRepeat : Prop :=
  ∀ (i : Instr) (s : State), isReadOnly i = true →
    ∃ r : Response, exec i s = .next { s with rsp := some r } ∧
      exec i { s with rsp := some r } = .next { s with rsp := some r }

/-- R48: CRCINIT, DECCLR and DECRUN are idempotent; CRCFEED and DECLOAD advance the CRC engine and RBN. -/
def Obligations.IdempotentCommands : Prop :=
  (∀ i ∈ [Instr.crcInit, .decClr, .decRun], ∀ s : State, ∃ t, exec i s = .next t ∧ exec i t = .next t) ∧
  (∀ (v : Half) (s : State), s.dec.rbn.val < 15 → ∃ t, exec (.decLoad v) s = .next t ∧
    t.dec.rbn.val = s.dec.rbn.val + 1) ∧
  (∀ (b : Byte) (s : State), ∃ t, exec (.crcFeed b) s = .next t ∧ t.codec.h1 = s.codec.crc ∧ t.codec.t1 = b)

/-- R87: a second DECRUN, with only DECRD, frame-codec commands and ADDRCHK between the two, writes the same latches
and the same DV, leaves RB and RBN, and gives the same response. -/
def Obligations.RepeatedDecRunIsIdempotent : Prop :=
  ∀ (s : State) (between : List Instr),
    (∀ i ∈ between, i.mnemonic ∉ [Mnemonic.decClr, .decLoad, .decRun]) →
    ∃ t u, perform [.decRun] s = .next t ∧ perform (.decRun :: between ++ [.decRun]) s = .next u ∧
      u.dec = t.dec ∧ u.rsp = t.rsp ∧ t.dec.rb = s.dec.rb ∧ t.dec.rbn = s.dec.rbn

/-! ### Command sequences realise the source's functions -/

/-- R88: after DECCLR or reset, n DECLOADs and DECRUN, RBN is min(n, 15), and DECRUN succeeds if and only if n is
10, and fails with INVALID_REGISTER_COUNT otherwise. -/
def Obligations.LoadCountDecidesDecRun : Prop :=
  ∀ (s : State) (start : HostEvent) (rs : List Half), start ∈ [offered .decClr, HostEvent.reset] →
    ∃ t, serveAll (start :: rs.map (fun v => offered (.decLoad v)) ++ [offered .decRun]) s = .next t ∧
      t.dec.rbn.val = min rs.length 15 ∧ (t.dec.dv = true ↔ rs.length = 10) ∧
      t.rsp = some { err := if rs.length = 10 then .ok else .invalidRegisterCount, data := 0#32 }

/-- R89: `dec.block` realises the source's decode. It fails exactly when the source's decode does, for a length
other than 10; otherwise DECRD of any field gives the raw, integer and fractional parts of that field of the
Measurement, exactly. Nothing depends on the state before. -/
def Obligations.DecBlockRealisesDecode : Prop :=
  ∀ (s : State) (regs : List Half), ∃ t, perform (expand (.decBlock regs)) s = .next t ∧
    (regs.length ≠ 10 → Source.decode regs = none ∧
      t.rsp = some { err := .invalidRegisterCount, data := 0#32 }) ∧
    (regs.length = 10 → t.rsp = some { err := .ok, data := 0#32 } ∧
      ∃ m, Source.decode regs = some m ∧ ∀ f : Field, ∃ raw int frac : Word,
        exec (.decRd .raw f) t = .next { t with rsp := some { err := .ok, data := raw } } ∧
        exec (.decRd .int f) t = .next { t with rsp := some { err := .ok, data := int } } ∧
        exec (.decRd .frac f) t = .next { t with rsp := some { err := .ok, data := frac } } ∧
        m.field f = (raw.toNat : Rat) / (divisor f).toNat ∧
        m.field f = int.toNat + (frac.toNat : Rat) / (divisor f).toNat ∧
        frac.toNat < (divisor f).toNat)

/-- R113: `crc.compute` answers its CRCGET with the CRC of the bytes, whatever came before. -/
def Obligations.CrcComputeRealisesCrc16 : Prop :=
  ∀ (s : State) (bytes : List Byte), ∃ t, perform (expand (.crcCompute bytes)) s = .next t ∧
    t.captured = s.captured ++ List.replicate (bytes.length + 1) okay ++
      [{ err := .ok, data := (crc16 bytes).setWidth 32 }]

/-- R114 with R111: the two FRMTAIL responses of `frm.build` carry the low and the high byte of the payload's CRC,
and the payload followed by them is the source's frame, two bytes longer than the payload. -/
def Obligations.FrmBuildRealisesBuildFrame : Prop :=
  ∀ (s : State) (p : List Byte), ∃ (t : State) (lo hi : Byte), perform (expand (.frmBuild p)) s = .next t ∧
    t.captured = s.captured ++ List.replicate (p.length + 1) okay ++
      [{ err := .ok, data := lo.setWidth 32 }, { err := .ok, data := hi.setWidth 32 }] ∧
    lo.toNat = (crc16 p).toNat % 256 ∧ hi.toNat = (crc16 p).toNat / 256 ∧
    Source.buildFrame p = p ++ [lo, hi] ∧ (Source.buildFrame p).length = p.length + 2

/-- R115: the FRMCHK response of `frm.validate` is (OK, 1) exactly when the source's validateFrame is true,
(INVALID_FRAME, 2) for a frame shorter than two bytes, and (INVALID_FRAME, 0) when the CRC of all bytes but the
last two is not f[n-2] + 256 * f[n-1]. -/
def Obligations.FrmValidateRealisesValidateFrame : Prop :=
  ∀ (s : State) (f : List Byte), ∃ t, perform (expand (.frmValidate f)) s = .next t ∧
    (t.rsp = some { err := .ok, data := 1#32 } ↔ Source.validateFrame f = true) ∧
    (f.length < 2 → t.rsp = some { err := .invalidFrame, data := 2#32 }) ∧
    (∀ (p : List Byte) (lo hi : Byte), f = p ++ [lo, hi] → (crc16 p).toNat ≠ lo.toNat + 256 * hi.toNat →
      t.rsp = some { err := .invalidFrame, data := 0#32 })

/-- R116: `frm.validate` of a frame built by `buildFrame` answers (OK, 1). -/
def Obligations.BuiltFrameValidates : Prop :=
  ∀ (s : State) (p : List Byte), ∃ t, perform (expand (.frmValidate (Source.buildFrame p))) s = .next t ∧
    t.rsp = some { err := .ok, data := 1#32 }

/-- R117: a valid frame with one byte changed is rejected. -/
def Obligations.SingleByteChangeIsDetected : Prop :=
  ∀ (s : State) (f : List Byte) (j : Nat) (hj : j < f.length) (e : Byte),
    Source.validateFrame f = true → e ≠ 0#8 →
    ∃ t, perform (expand (.frmValidate (f.set j (f[j] ^^^ e)))) s = .next t ∧
      t.rsp = some { err := .invalidFrame, data := 0#32 }

/-- R118: the CRC of a built frame is 0; a frame of at least two bytes is accepted exactly when its CRC is 0; and
in every state whose codec is coherent FRMCHK answers what the check `FILL == 2 and CRC == 0` would. -/
def Obligations.FrameResidueIsZero : Prop :=
  (∀ p : List Byte, crc16 (Source.buildFrame p) = 0#16) ∧
  (∀ (s : State) (f : List Byte), 2 ≤ f.length → ∃ t, perform (expand (.frmValidate f)) s = .next t ∧
    (t.rsp = some { err := .ok, data := 1#32 } ↔ crc16 f = 0#16)) ∧
  (∀ s : State, s.codec.Coherent →
    exec .frmChk s = .next (s.respond (residueVerdict s.codec).err (residueVerdict s.codec).data))

/-- The two facts that R117's proof rests on: `crcByte` is linear over XOR, and for a fixed byte it is one to
one. -/
def Obligations.CrcByteIsLinearAndInjective : Prop :=
  (∀ (c c' : Half) (b b' : Byte), crcByte (c ^^^ c') (b ^^^ b') = crcByte c b ^^^ crcByte c' b') ∧
  (∀ (c c' : Half) (b : Byte), crcByte c b = crcByte c' b → c = c')

/-! ### Invariants -/

/-- R109: at reset and after CRCINIT no byte has been fed; and whatever the host does, the codec keeps holding what
the bytes fed since the last CRCINIT or reset say. -/
def Obligations.CodecReflectsFedBytes : Prop :=
  State.reset.codec.Reflects [] ∧
  (∀ s : State, ∃ t, exec .crcInit s = .next t ∧ t.codec.Reflects []) ∧
  ∀ (es : List HostEvent) (s : State) (l : List Byte), s.codec.Reflects l →
    ∃ t, serveAll es s = .next t ∧ t.codec.Reflects (es.foldl fedAfterEvent l)

/-- R29 and R31 (with R28): at reset no register has been loaded; and whatever the host does, RBN is the number of
loads since the last DECCLR or reset, up to 15, RB holds the first ten of them, and DV is 1 exactly when the latches
hold the result of a successful DECRUN with no DECCLR and no failed DECRUN since. -/
def Obligations.DecoderReflectsLoads : Prop :=
  State.reset.dec.Reflects BlockHistory.start ∧
  ∀ (es : List HostEvent) (s : State) (h : BlockHistory), s.dec.Reflects h →
    ∃ t, serveAll es s = .next t ∧ t.dec.Reflects (es.foldl blockAfterEvent h)

/-- Every step keeps the codec coherent: CRC, H1 and H2 stay the CRCs that the last two bytes link. -/
def Obligations.StepKeepsCodecCoherent : Prop :=
  ∀ s t : State, s.codec.Coherent → step s = .next t → t.codec.Coherent

/-- The codec is coherent at reset. -/
def Obligations.ResetCodecIsCoherent : Prop := State.reset.codec.Coherent

/-! ### What no response can show -/

/-- R35: states that differ only in unspecified elements stay so, step by step, and answer the same. -/
def Obligations.StepKeepsAgreement : Prop :=
  ∀ s s' t : State, s.Agree s' → step s = .next t → ∃ t', step s' = .next t' ∧ t.Agree t'

/-- R35: whatever values the unspecified elements have at reset, the host captures the same responses in every
run, so nothing rests on the zeros of log entries 2, 3 and 4. -/
def Obligations.UnspecifiedResetValuesUnobservable : Prop :=
  ∀ (t0 t1 : Byte) (rb : Vector Half 10) (l : Latches) (es : List HostEvent), ∃ t u,
    serveAll es State.reset = .next t ∧ serveAll es (State.resetWith t0 t1 rb l) = .next u ∧
    t.captured = u.captured ∧ t.rsp = u.rsp

/-- R80: no response and no latch depends on RB[9]. After a reset among the host's events, the clause about the
latches rests on their one fixed value at reset, which R34 leaves unspecified (log entry 4). -/
def Obligations.Register9IsNeverVisible : Prop :=
  ∀ (s : State) (v : Half) (es : List HostEvent), ∃ t u,
    serveAll es s = .next t ∧ serveAll es (s.withRegister9 v) = .next u ∧
    t.captured = u.captured ∧ t.rsp = u.rsp ∧ t.dec.latches = u.dec.latches

/-! ### The ports, cycle by cycle -/

/-- R145 in the port layer, which rests on choices of the model: one cycle with `rst_n` = 0 gives the reset state (log
entry 22), which has values in the elements that R34 leaves unspecified (log entries 2, 3 and 4), with `cmd_ready` = 0
and no response; after it, with `rst_n` = 1, `cmd_ready` is 0 for P_RESET_RECOVERY cycles, a free value (log entry
13), and 1 in the next. -/
def Obligations.PortResetAndRecovery : Prop :=
  (∀ (i : PortIn) (p : Port), i.rstN = false →
    (cycle i p).1.core = State.reset ∧ (cycle i p).1 = Port.inReset ∧
    (cycle i p).2 = { cmdReady := false, rsp := none }) ∧
  ∀ (is : List PortIn) (k : Nat), (∀ i ∈ is, i.rstN = true) → k < is.length → k ≤ Config.resetRecovery →
    (cycles is Port.inReset).2[k]? = some { cmdReady := decide (k = Config.resetRecovery), rsp := none }

/-- R20, in the port layer (its latencies are free values, log entry 12; whether `cmd_ready` is 1 in the presenting
cycle is one too, log entry 14; a command's state changes land in its presenting cycle, log entry 15): a word accepted
in a cycle, that is, offered while `cmd_ready` is 1, be the block idle or just presenting the previous response, has
its one response exactly P_LATENCY cycles later, the response that its command gives at the state that the command
before it left; until then `cmd_ready` is 0 and no response is presented. -/
def Obligations.PortAnswersAfterLatency : Prop :=
  ∀ (p : Port) (i : PortIn) (is : List PortIn) (t : State) (r : Response),
    (cycle i p).2.cmdReady = true → i.cmdValid = true → (∀ j ∈ is, j.rstN = true) →
    is.length = latency i.cmd → accept i.cmd (cycle i p).1.core = .next t → t.rsp = some r →
    1 ≤ latency i.cmd ∧
    (p.phase = .idle ∧ (cycle i p).1.core = p.core ∧ (cycle i p).2.rsp = none ∨
      ∃ w, p.phase = .busy w 0 ∧ accept w p.core = .next (cycle i p).1.core ∧
        (cycle i p).2.rsp = (cycle i p).1.core.rsp) ∧
    (cycles is (cycle i p).1).1.core = t ∧
    ∃ ready, (cycles is (cycle i p).1).2 =
      List.replicate (latency i.cmd - 1) { cmdReady := false, rsp := none } ++
        [{ cmdReady := ready, rsp := some r }]

/-- R146 in the port layer: reset while a command is in progress gives no response, then or before, and leaves the
reset state. That one cycle of reset does so is the model's choice (log entry 22), as are the values of the reset
state's unspecified elements (log entries 2, 3 and 4). -/
def Obligations.PortResetAbandonsCommand : Prop :=
  ∀ (p : Port) (w : Word) (left : Nat) (is : List PortIn) (i : PortIn),
    p.phase = .busy w left → (∀ j ∈ is, j.rstN = true) → is.length ≤ left → i.rstN = false →
    (cycles (is ++ [i]) p).1 = Port.inReset ∧ responses (cycles (is ++ [i]) p).2 = []

/-- R155 in the port layer (its latency and recovery time are free values, log entries 12 and 13): with `rst_n` kept
at 1, `cmd_ready` becomes 1 within a bounded number of cycles, whatever PMCORE was doing: a held host is never stuck. -/
def Obligations.PortHostIsNeverStuck : Prop :=
  ∀ p : Port, ∃ n, ∀ is : List PortIn, (∀ i ∈ is, i.rstN = true) → n ≤ is.length →
    ∃ o ∈ (cycles is p).2, o.cmdReady = true

/-- R50 and R20, in the port layer: over any sequence of cycles without reset, from a block with no command in
progress, the responses presented are those that the transaction-level steps give for the accepted words in order,
each step seeing the state the one before left; at most one accepted word is still without its response. That the
codec and the decoder are those of the steps for the answered words only, an accepted word not counting until it is
answered, is the model's choice (log entry 15: state changes land in the presenting cycle). -/
def Obligations.PortRefinesSteps : Prop :=
  ∀ (p : Port) (is : List PortIn), (∀ i ∈ is, i.rstN = true) → (∀ w left, p.phase ≠ .busy w left) →
    let q := cycles is p
    let ws := acceptedWords is q.2
    let rs := responses q.2
    rs.length ≤ ws.length ∧ ws.length ≤ rs.length + 1 ∧
    ∃ t, serveAll ((ws.take rs.length).map .command) { p.core with captured := [], pending := [] } = .next t ∧
      t.captured = rs ∧ t.codec = q.1.core.codec ∧ t.dec = q.1.core.dec
end

