-- ==== Sys2Proof/Laws/Decode.lean ====
section
/-! SUPPORT. Small lemmas of the opcode map (30_encoding.md R63, R65): a row that matches a word is the row found
by the word's OPC. -/

namespace Sys2Proof

/-- The rows' OPC values differ (R65). -/
theorem opcodeMap_opc_injective : ∀ r ∈ opcodeMap, ∀ r' ∈ opcodeMap, opcOf r.fixed = opcOf r'.fixed → r = r' := by
  decide

/-- Every mask covers all of OPC (R65). -/
theorem opcodeMap_mask_covers_opc : ∀ r ∈ opcodeMap, opcOf r.mask = 0xFF#8 := by decide

/-- A word that a row matches has the row's OPC. -/
theorem opcOf_of_match {r : Row} (hr : r ∈ opcodeMap) {w : Word} (h : w &&& r.mask = r.fixed) :
    opcOf r.fixed = opcOf w := by
  have hand : opcOf (w &&& r.mask) = opcOf w &&& opcOf r.mask := by
    unfold opcOf
    ext k hk
    simp
  rw [← h, hand, opcodeMap_mask_covers_opc r hr]
  exact BitVec.and_allOnes

/-- The row that matches a word is the one that `decode` looks at. -/
theorem find_row_of_match {r : Row} (hr : r ∈ opcodeMap) {w : Word} (h : w &&& r.mask = r.fixed) :
    (opcodeMap.find? fun r => opcOf r.fixed == opcOf w) = some r := by
  have ho := opcOf_of_match hr h
  cases hf : opcodeMap.find? fun r => opcOf r.fixed == opcOf w with
  | none =>
    rw [List.find?_eq_none] at hf
    exact absurd (by simp [ho]) (hf r hr)
  | some r' =>
    have hsome := List.find?_some hf
    simp only [beq_iff_eq] at hsome
    rw [opcodeMap_opc_injective r hr r' (List.mem_of_find?_eq_some hf) (ho.trans hsome.symm)]

end Sys2Proof
end

