-- ==== Sys2Proof/Laws/State.lean ====
section
/-! SUPPORT. One lemma per field per update of the state, all true by definition. -/

namespace Sys2Proof.Machine

@[simp] theorem withCodec_codec (s : State) (c : Codec) : (s.withCodec c).codec = c := rfl
@[simp] theorem withCodec_dec (s : State) (c : Codec) : (s.withCodec c).dec = s.dec := rfl
@[simp] theorem withCodec_rsp (s : State) (c : Codec) : (s.withCodec c).rsp = s.rsp := rfl
@[simp] theorem withCodec_captured (s : State) (c : Codec) : (s.withCodec c).captured = s.captured := rfl
@[simp] theorem withCodec_pending (s : State) (c : Codec) : (s.withCodec c).pending = s.pending := rfl

@[simp] theorem withDec_codec (s : State) (d : Decoder) : (s.withDec d).codec = s.codec := rfl
@[simp] theorem withDec_dec (s : State) (d : Decoder) : (s.withDec d).dec = d := rfl
@[simp] theorem withDec_rsp (s : State) (d : Decoder) : (s.withDec d).rsp = s.rsp := rfl
@[simp] theorem withDec_captured (s : State) (d : Decoder) : (s.withDec d).captured = s.captured := rfl
@[simp] theorem withDec_pending (s : State) (d : Decoder) : (s.withDec d).pending = s.pending := rfl

@[simp] theorem respond_codec (s : State) (e : ErrCode) (d : Word) : (s.respond e d).codec = s.codec := rfl
@[simp] theorem respond_dec (s : State) (e : ErrCode) (d : Word) : (s.respond e d).dec = s.dec := rfl
@[simp] theorem respond_rsp (s : State) (e : ErrCode) (d : Word) : (s.respond e d).rsp = some ⟨e, d⟩ := rfl
@[simp] theorem respond_captured (s : State) (e : ErrCode) (d : Word) : (s.respond e d).captured = s.captured := rfl
@[simp] theorem respond_pending (s : State) (e : ErrCode) (d : Word) : (s.respond e d).pending = s.pending := rfl

@[simp] theorem capture_codec (s : State) : s.capture.codec = s.codec := rfl
@[simp] theorem capture_dec (s : State) : s.capture.dec = s.dec := rfl
@[simp] theorem capture_rsp (s : State) : s.capture.rsp = s.rsp := rfl
@[simp] theorem capture_captured (s : State) : s.capture.captured = s.captured ++ s.rsp.toList := rfl
@[simp] theorem capture_pending (s : State) : s.capture.pending = s.pending := rfl

@[simp] theorem idle_codec (s : State) : s.idle.codec = s.codec := rfl
@[simp] theorem idle_dec (s : State) : s.idle.dec = s.dec := rfl
@[simp] theorem idle_rsp (s : State) : s.idle.rsp = none := rfl
@[simp] theorem idle_captured (s : State) : s.idle.captured = s.captured := rfl
@[simp] theorem idle_pending (s : State) : s.idle.pending = s.pending := rfl

@[simp] theorem doReset_codec (s : State) : s.doReset.codec = State.reset.codec := rfl
@[simp] theorem doReset_dec (s : State) : s.doReset.dec = State.reset.dec := rfl
@[simp] theorem doReset_rsp (s : State) : s.doReset.rsp = none := rfl
@[simp] theorem doReset_captured (s : State) : s.doReset.captured = [] := rfl
@[simp] theorem doReset_pending (s : State) : s.doReset.pending = s.pending := rfl

@[simp] theorem offer_codec (s : State) (es : List HostEvent) : (s.offer es).codec = s.codec := rfl
@[simp] theorem offer_dec (s : State) (es : List HostEvent) : (s.offer es).dec = s.dec := rfl
@[simp] theorem offer_rsp (s : State) (es : List HostEvent) : (s.offer es).rsp = s.rsp := rfl
@[simp] theorem offer_captured (s : State) (es : List HostEvent) : (s.offer es).captured = s.captured := rfl
@[simp] theorem offer_pending (s : State) (es : List HostEvent) : (s.offer es).pending = es ++ s.pending := rfl

@[simp] theorem withFetchWord_codec (s : State) (n w : Nat) : (s.withFetchWord n w).codec = s.codec := rfl
@[simp] theorem withFetchWord_dec (s : State) (n w : Nat) : (s.withFetchWord n w).dec = s.dec := rfl
@[simp] theorem withFetchWord_rsp (s : State) (n w : Nat) : (s.withFetchWord n w).rsp = s.rsp := rfl
@[simp] theorem withFetchWord_captured (s : State) (n w : Nat) : (s.withFetchWord n w).captured = s.captured := rfl
@[simp] theorem withFetchWord_pending (s : State) (n w : Nat) :
    (s.withFetchWord n w).pending = .command (tableWord n w) :: s.pending := rfl

end Sys2Proof.Machine
end

