-- ==== Sys2Proof/Laws/Ops.lean ====
section
/-! SUPPORT. What each shared operation does, said once. -/

namespace Sys2Proof.Machine

@[simp] theorem answer_eq (s : State) (d : Word) : answer s d = .next (s.respond .ok d) := rfl

@[simp] theorem raise_eq (s : State) (e : ErrCode) : raise s e = .next (s.respond e 0#32) := rfl

@[simp] theorem illegalCommand_eq (s : State) :
    illegalCommand s = .next (s.respond .illegalCommand 0#32) := rfl

@[simp] theorem captureNext_next (t : State) : captureNext (.next t) = .next t.capture := rfl

/-- A saturating count as a number (R27). -/
theorem bumpFill_val (f : Fin 3) : (bumpFill f).val = min (f.val + 1) 2 := by
  revert f; decide

/-- A saturating count as a number (R29). -/
theorem bumpRbn_val (n : Fin 16) : (bumpRbn n).val = min (n.val + 1) 15 := by
  revert n; decide

/-- `RBN` = 10, as a number. -/
theorem blockComplete_iff (d : Decoder) : blockComplete d = true ↔ d.rbn.val = 10 := by
  simp [blockComplete]

/-- The load writes `RB[RBN]` and no other register (R82). -/
theorem loadRegister_rb (d : Decoder) (v : Half) (i : Nat) (hi : i < 10) :
    (loadRegister d v).rb[i] = if i = d.rbn.val then v else d.rb[i] := by
  unfold loadRegister
  by_cases h : d.rbn.val < 10
  · simp [h, Vector.getElem_set, eq_comm]
  · simp [h, show i ≠ d.rbn.val by omega]

/-- A register pair as a number (R76). -/
theorem word32_toNat (hi lo : Half) : (word32 hi lo).toNat = hi.toNat * 65536 + lo.toNat := by
  have h := lo.isLt
  simp only [word32, BitVec.toNat_append, Nat.shiftLeft_eq]
  rw [Nat.mul_comm, ← Nat.two_pow_add_eq_or_of_lt h]

/-- The trailer bytes as a number (R41). -/
theorem trailerValue_toNat (first second : Byte) :
    (trailerValue first second).toNat = first.toNat + 256 * second.toNat := by
  have h := first.isLt
  simp only [trailerValue, BitVec.toNat_append, Nat.shiftLeft_eq]
  rw [Nat.mul_comm, ← Nat.two_pow_add_eq_or_of_lt h]
  omega

/-- The trailer bytes of a CRC, read back, are the CRC (R106, R107). -/
theorem trailerValue_crc (c : Half) : trailerValue (crcLow c) (crcHigh c) = c := by
  apply BitVec.eq_of_toNat_eq
  have h := c.isLt
  simp only [trailerValue_toNat, crcLow, crcHigh, BitVec.extractLsb'_toNat, Nat.shiftRight_eq_div_pow]
  omega

@[simp] theorem shiftSteps_zero (c : Half) : shiftSteps 0 c = c := rfl
@[simp] theorem shiftSteps_succ (n : Nat) (c : Half) : shiftSteps (n + 1) c = shiftSteps n (shiftStep c) := rfl

@[simp] theorem crcFold_nil (c : Half) : crcFold c [] = c := rfl
@[simp] theorem crcFold_cons (c : Half) (b : Byte) (l : List Byte) :
    crcFold c (b :: l) = crcFold (crcByte c b) l := rfl
theorem crcFold_append (c : Half) (l m : List Byte) : crcFold c (l ++ m) = crcFold (crcFold c l) m := by
  simp [crcFold]

end Sys2Proof.Machine
end

