-- ==== Sys2Proof/Laws/Exec.lean ====
section
/-! SUPPORT. Everything `exec` and `step` can do, said once: each part's next value and the response as functions
of the parts, so that no later proof unfolds a meaning. -/

namespace Sys2Proof.Machine

/-- The codec after a command. -/
def codecAfter : Instr → Codec → Codec
  | .crcInit, _ => codecStart
  | .crcFeed b, c => feedByte c b
  | .crcGet, c | .frmTail _, c | .frmChk, c | .decClr, c | .decLoad _, c | .decRun, c | .decRd _ _, c
  | .addrChk _, c => c

/-- The decoder after a command. -/
def decAfter : Instr → Decoder → Decoder
  | .decClr, d => clearBlock d
  | .decLoad v, d => loadRegister d v
  | .decRun, d => if blockComplete d then latchFields d else invalidate d
  | .crcInit, d | .crcFeed _, d | .crcGet, d | .frmTail _, d | .frmChk, d | .decRd _ _, d | .addrChk _, d => d

/-- The response of a command. -/
def responseOf : Instr → Codec → Decoder → Response
  | .crcInit, _, _ | .crcFeed _, _, _ | .decClr, _, _ | .decLoad _, _, _ => okay
  | .crcGet, c, _ => ⟨.ok, c.crc.setWidth 32⟩
  | .frmTail k, c, _ => ⟨.ok, (trailerByte k c.crc).setWidth 32⟩
  | .frmChk, c, _ => ⟨(frameVerdict c).err, (frameVerdict c).data⟩
  | .decRun, _, d => if blockComplete d then okay else ⟨.invalidRegisterCount, 0#32⟩
  | .decRd view field, _, d =>
    if d.dv then ⟨.ok, scale (d.latches.raw field) (divisor field) view⟩ else ⟨.notReady, 0#32⟩
  | .addrChk a, _, _ => if addressInRange a then ⟨.ok, 1#32⟩ else ⟨.invalidAddress, 0#32⟩

/-- Everything a command does: it writes its part, answers once, and touches nothing else. -/
theorem exec_eq (i : Instr) (s : State) :
    exec i s = .next { s with
      codec := codecAfter i s.codec, dec := decAfter i s.dec, rsp := some (responseOf i s.codec s.dec) } := by
  cases i with
  | decRun => by_cases h : blockComplete s.dec <;> simp [exec, execDecRun, h, codecAfter, decAfter, responseOf] <;> rfl
  | decRd v f => by_cases h : s.dec.dv <;> simp [exec, execDecRd, h, codecAfter, decAfter, responseOf] <;> rfl
  | addrChk a => by_cases h : addressInRange a <;> simp [exec, execAddrChk, h, codecAfter, decAfter, responseOf] <;> rfl
  | crcInit | crcFeed | crcGet | frmTail | frmChk | decClr | decLoad => rfl

/-- The codec after an accepted word. -/
def codecAfterWord (w : Word) (c : Codec) : Codec :=
  match decode w with
  | .command i => codecAfter i c
  | .illegal _ => c

/-- The decoder after an accepted word. -/
def decAfterWord (w : Word) (d : Decoder) : Decoder :=
  match decode w with
  | .command i => decAfter i d
  | .illegal _ => d

/-- The response to an accepted word. -/
def responseOfWord (w : Word) (c : Codec) (d : Decoder) : Response :=
  match decode w with
  | .command i => responseOf i c d
  | .illegal _ => ⟨.illegalCommand, 0#32⟩

/-- Everything an accepted word does. -/
theorem accept_eq (w : Word) (s : State) :
    accept w s = .next { s with
      codec := codecAfterWord w s.codec
      dec := decAfterWord w s.dec
      rsp := some (responseOfWord w s.codec s.dec) } := by
  unfold accept codecAfterWord decAfterWord responseOfWord
  cases decode w with
  | command i => exact exec_eq i s
  | illegal _ => rfl

/-- The state that a host event leaves. -/
def afterEvent (e : HostEvent) (s : State) : State :=
  match e with
  | .command w =>
    { s with
      codec := codecAfterWord w s.codec
      dec := decAfterWord w s.dec
      rsp := some (responseOfWord w s.codec s.dec)
      captured := s.captured ++ [responseOfWord w s.codec s.dec] }
  | .missed w =>
    { s with
      codec := codecAfterWord w s.codec
      dec := decAfterWord w s.dec
      rsp := some (responseOfWord w s.codec s.dec) }
  | .reset | .abandoned _ => s.doReset

/-- Everything a host event does. -/
theorem serve_eq (e : HostEvent) (s : State) : serve e s = .next (afterEvent e s) := by
  cases e <;> simp [serve, accept_eq, afterEvent, State.capture]

/-- A step with an event to serve. -/
theorem step_cons {s : State} {e : HostEvent} {rest : List HostEvent} (h : s.pending = e :: rest) :
    step s = .next (afterEvent e { s with pending := rest }) := by
  simp [step, h, serve_eq]

/-- A step with none. -/
theorem step_nil {s : State} (h : s.pending = []) : step s = .next s.idle := by
  simp [step, h]

/-- What an event leaves does not depend on what the host does later, which stays. -/
theorem afterEvent_pending (e : HostEvent) (s : State) (l : List HostEvent) :
    afterEvent e { s with pending := l } = { afterEvent e s with pending := l } := by
  cases e <;> rfl

/-- Serving a list of events is one event after another, and then the host's own list is as it was. -/
theorem serveAll_eq (es : List HostEvent) (s : State) :
    serveAll es s = .next (es.foldl (fun t e => afterEvent e t) s) := by
  unfold serveAll
  induction es generalizing s with
  | nil => rfl
  | cons e es ih =>
    have h : (s.offer (e :: es)).pending = e :: (es ++ s.pending) := rfl
    rw [List.length_cons, runSteps, step_cons h]
    simp only [State.offer, afterEvent_pending, List.foldl_cons]
    have hp : (afterEvent e s).pending = s.pending := by cases e <;> rfl
    simpa [State.offer, hp] using ih (afterEvent e s)

end Sys2Proof.Machine
end

