-- ==== Sys2Proof/Laws/PerInstr.lean ====
section
/-! SUPPORT. Per command: its word lies in its own row of the opcode map (30_encoding.md R63, R64, R71): every bit
that the row's mask covers has the row's value, the must-be-zero bits among them. -/

namespace Sys2Proof.Laws.RowMatch

/-- The row of a mnemonic matches the word of the command. -/
def Statement (i : Instr) : Prop :=
  ∃ r ∈ opcodeMap, r.mnemonic = i.mnemonic ∧ r.matches (encode i) = true

theorem crcInit : Statement .crcInit := ⟨⟨.crcInit, 0x01000000#32, 0xFFFFFFFF#32⟩, by decide, rfl, by decide⟩

theorem crcFeed (b : Byte) : Statement (.crcFeed b) :=
  ⟨⟨.crcFeed, 0x02000000#32, 0xFFFFFF00#32⟩, by decide, rfl, by
    simp only [Row.matches, encode, beq_iff_eq]
    ext k hk
    interval_cases k <;> simp⟩

theorem crcGet : Statement .crcGet := ⟨⟨.crcGet, 0x03000000#32, 0xFFFFFFFF#32⟩, by decide, rfl, by decide⟩

theorem frmTail (k : TrailerByte) : Statement (.frmTail k) :=
  ⟨⟨.frmTail, 0x04000000#32, 0xFFFEFFFF#32⟩, by decide, rfl, by cases k <;> decide⟩

theorem frmChk : Statement .frmChk := ⟨⟨.frmChk, 0x05000000#32, 0xFFFFFFFF#32⟩, by decide, rfl, by decide⟩

theorem decClr : Statement .decClr := ⟨⟨.decClr, 0x10000000#32, 0xFFFFFFFF#32⟩, by decide, rfl, by decide⟩

theorem decLoad (v : Half) : Statement (.decLoad v) :=
  ⟨⟨.decLoad, 0x11000000#32, 0xFFFF0000#32⟩, by decide, rfl, by
    simp only [Row.matches, encode, beq_iff_eq]
    ext k hk
    interval_cases k <;> simp⟩

theorem decRun : Statement .decRun := ⟨⟨.decRun, 0x12000000#32, 0xFFFFFFFF#32⟩, by decide, rfl, by decide⟩

theorem decRd (view : View) (field : Field) : Statement (.decRd view field) :=
  ⟨⟨.decRd, 0x13000000#32, 0xFFC0FFFF#32⟩, by decide, rfl, by cases view <;> cases field <;> decide⟩

theorem addrChk (a : Half) : Statement (.addrChk a) :=
  ⟨⟨.addrChk, 0x20000000#32, 0xFFFF0000#32⟩, by decide, rfl, by
    simp only [Row.matches, encode, beq_iff_eq]
    ext k hk
    interval_cases k <;> simp⟩

end Sys2Proof.Laws.RowMatch
end

