-- ==== Sys2Proof/Laws/Port.lean ====
section
/-! SUPPORT. What one cycle of the ports does in each phase (10_state.md R20, 70_reset_and_hazards.md R145). -/

namespace Sys2Proof.Machine

/-- The state an accepted word leaves. -/
theorem performed_eq (w : Word) (s : State) :
    performed w s = { s with
      codec := codecAfterWord w s.codec
      dec := decAfterWord w s.dec
      rsp := some (responseOfWord w s.codec s.dec) } := by
  simp [performed, accept_eq]

theorem cycle_reset {i : PortIn} (p : Port) (h : i.rstN = false) :
    cycle i p = (Port.inReset, { cmdReady := false, rsp := none }) := by
  simp [cycle, h]

theorem cycle_recovering_zero {i : PortIn} {p : Port} (h : i.rstN = true) (hp : p.phase = .recovering 0) :
    cycle i p = ({ p with phase := .idle }, { cmdReady := false, rsp := none }) := by
  simp [cycle, h, hp]

theorem cycle_recovering_succ {i : PortIn} {p : Port} {n : Nat} (h : i.rstN = true)
    (hp : p.phase = .recovering (n + 1)) :
    cycle i p = ({ p with phase := .recovering n }, { cmdReady := false, rsp := none }) := by
  simp [cycle, h, hp]

theorem cycle_idle {i : PortIn} {p : Port} (h : i.rstN = true) (hp : p.phase = .idle) :
    cycle i p = ({ p with phase := takeOffer true i }, { cmdReady := true, rsp := none }) := by
  simp [cycle, h, hp]

theorem cycle_busy_succ {i : PortIn} {p : Port} {w : Word} {n : Nat} (h : i.rstN = true)
    (hp : p.phase = .busy w (n + 1)) :
    cycle i p = ({ p with phase := .busy w n }, { cmdReady := false, rsp := none }) := by
  simp [cycle, h, hp]

theorem cycle_busy_zero {i : PortIn} {p : Port} {w : Word} (h : i.rstN = true) (hp : p.phase = .busy w 0) :
    cycle i p = ({ core := performed w p.core, phase := takeOffer Config.readyWhilePresenting i },
      { cmdReady := Config.readyWhilePresenting, rsp := (performed w p.core).rsp }) := by
  simp [cycle, h, hp]

/-- `cmd_ready` is 1 only out of reset, in an idle block or, where the block allows it (log entry 14), in a cycle that
presents a response (R20). -/
theorem cmdReady_cases {i : PortIn} {p : Port} (h : (cycle i p).2.cmdReady = true) :
    i.rstN = true ∧ (p.phase = .idle ∨ ∃ w, p.phase = .busy w 0 ∧ Config.readyWhilePresenting = true) := by
  cases hr : i.rstN with
  | false => simp [cycle_reset p hr] at h
  | true =>
    refine ⟨rfl, ?_⟩
    cases hp : p.phase with
    | idle => exact .inl rfl
    | recovering n =>
      cases n with
      | zero => simp [cycle_recovering_zero hr hp] at h
      | succ n => simp [cycle_recovering_succ hr hp] at h
    | busy w n =>
      cases n with
      | zero => exact .inr ⟨w, rfl, by simpa [cycle_busy_zero hr hp] using h⟩
      | succ n => simp [cycle_busy_succ hr hp] at h

end Sys2Proof.Machine
end

