-- ==== Sys2Proof/Laws/WellFormed.lean ====
section
/-! SUPPORT. Every command is well formed, and the written commands that pass the check are exactly the commands
(30_encoding.md R69). -/

namespace Sys2Proof

@[simp] theorem View.ofNumber_number (v : View) : View.ofNumber v.number = some v := by cases v <;> rfl
@[simp] theorem Field.ofNumber_number (f : Field) : Field.ofNumber f.number = some f := by cases f <;> rfl
@[simp] theorem TrailerByte.ofNumber_number (k : TrailerByte) : TrailerByte.ofNumber k.number = some k := by
  cases k <;> rfl

theorem View.number_le (v : View) : v.number ≤ 3 := by cases v <;> decide
theorem Field.number_le (f : Field) : f.number ≤ 5 := by cases f <;> decide
theorem TrailerByte.number_le (k : TrailerByte) : k.number ≤ 1 := by cases k <;> decide

/-- A term of `Instr` holds only operands that fit (R69, R71). -/
theorem Instr.wellFormed_all (i : Instr) : i.wellFormed = true := by
  cases i with
  | crcFeed b => simp only [Instr.wellFormed, Instr.toAsm, AsmCmd.wellFormed]; have := b.isLt; simp; omega
  | decLoad v => simp only [Instr.wellFormed, Instr.toAsm, AsmCmd.wellFormed]; have := v.isLt; simp; omega
  | addrChk a => simp only [Instr.wellFormed, Instr.toAsm, AsmCmd.wellFormed]; have := a.isLt; simp; omega
  | frmTail k => simp [Instr.wellFormed, Instr.toAsm, AsmCmd.wellFormed, TrailerByte.number_le]
  | decRd v f => simp [Instr.wellFormed, Instr.toAsm, AsmCmd.wellFormed, View.number_le, Field.number_le]
  | crcInit | crcGet | frmChk | decClr | decRun => rfl

/-- A command, written out and checked, is itself again. -/
theorem Instr.toInstr?_toAsm (i : Instr) : i.toAsm.toInstr? = some i := by
  have h := i.wellFormed_all
  unfold Instr.wellFormed at h
  cases i <;> simp_all [AsmCmd.toInstr?, Instr.toAsm]

end Sys2Proof
end

