-- ==== Sys2Proof/Tests/Slice0.lean ====
section
/-! SUPPORT. Tests on fixed values, each with the rule or vector of spec/ its expected result comes from; the
well-formedness smoke; and for every statement with hypotheses a witness that meets them. -/

namespace Sys2Proof.Tests

open Sys2Proof.Machine

/-! ### Well-formedness: an ill-formed term for each check (30_encoding.md R69) -/

theorem test_wf_refuses_byte_256 : (AsmCmd.crcFeed 256).wellFormed = false := by decide
theorem test_wf_refuses_trailer_2 : (AsmCmd.frmTail 2).wellFormed = false := by decide
theorem test_wf_refuses_register_65536 : (AsmCmd.decLoad 65536).wellFormed = false := by decide
theorem test_wf_refuses_view_4 : (AsmCmd.decRd 4 0).wellFormed = false := by decide
theorem test_wf_refuses_field_6 : (AsmCmd.decRd 0 6).wellFormed = false := by decide
theorem test_wf_refuses_address_65536 : (AsmCmd.addrChk 65536).wellFormed = false := by decide
theorem test_ill_formed_gives_no_command : (AsmCmd.decRd 4 0).toInstr? = none := by decide
theorem test_wf_accepts_largest : (AsmCmd.decRd 3 5).toInstr? = some (.decRd .div .pf) := by decide

/-! ### Decoding: words written out from R63's patterns, bit by bit -/

theorem test_decode_crcInit : decode 0b00000001_00000000_00000000_00000000#32 = .command .crcInit := by decide
theorem test_decode_crcFeed : decode 0b00000010_00000000_00000000_01000010#32 = .command (.crcFeed 0x42#8) := by decide
theorem test_decode_crcGet : decode 0b00000011_00000000_00000000_00000000#32 = .command .crcGet := by decide
theorem test_decode_frmTail_lo : decode 0b00000100_00000000_00000000_00000000#32 = .command (.frmTail .lo) := by decide
theorem test_decode_frmTail_hi : decode 0b00000100_00000001_00000000_00000000#32 = .command (.frmTail .hi) := by decide
theorem test_decode_frmChk : decode 0b00000101_00000000_00000000_00000000#32 = .command .frmChk := by decide
theorem test_decode_decClr : decode 0b00010000_00000000_00000000_00000000#32 = .command .decClr := by decide
theorem test_decode_decLoad : decode 0b00010001_00000000_00001000_10011000#32 = .command (.decLoad 2200#16) := by decide
theorem test_decode_decRun : decode 0b00010010_00000000_00000000_00000000#32 = .command .decRun := by decide
theorem test_decode_decRd : decode 0b00010011_00100001_00000000_00000000#32 = .command (.decRd .frac .curr) := by decide
theorem test_decode_addrChk : decode 0b00100000_00000000_00000001_00101100#32 = .command (.addrChk 300#16) := by decide

/-- Vectors E1 to E3 of 95_test_vectors.md: unassigned OPC values. -/
theorem test_illegal_unassigned : [0x00000000#32, 0xFFFFFFFF#32, 0x06000000#32].map decode =
    List.replicate 3 (.illegal .unassignedOpcode) := by decide

/-- Vectors E4 to E7 and E10 to E12: a must-be-zero bit set. -/
theorem test_illegal_must_be_zero :
    [0x02000142#32, 0x01000001#32, 0x04020000#32, 0x11010000#32, 0x13400000#32, 0x13F00000#32, 0x20010001#32].map
      decode = List.replicate 7 (.illegal .mustBeZeroSet) := by decide

/-- Vectors E8 and E9: DECRD with FIELD above 5. -/
theorem test_illegal_field : [0x13060000#32, 0x130F0000#32].map decode =
    List.replicate 2 (.illegal .fieldAboveFive) := by decide

theorem test_table_word : decodeTableWord 32 0x13350000 = some (.decRd .div .pf) := by decide
theorem test_table_word_short : decodeTableWord 24 0x13350000 = none := by decide

/-! ### The CRC (vectors C1 to C9) -/

theorem test_crcByte_C1_to_C5 :
    [0x01#8, 0x02#8, 0x40#8, 0x80#8, 0xFF#8].map (crcByte 0x0000#16) =
      [0xC0C1#16, 0xC181#16, 0xF001#16, 0xA001#16, 0x4040#16] := by decide
theorem test_crcByte_C6_C7 : crcByte 0xFFFF#16 0x01#8 = 0x807E#16 ∧ crcByte 0x807E#16 0x42#8 = 0x1180#16 := by decide
set_option maxRecDepth 8000 in
theorem test_crc16_C8 : [[], [0x00#8], [0xFF#8, 0xFF#8], [0xA0#8, 0x01#8], [0xF7#8, 0x42#8]].map crc16 =
    [0xFFFF#16, 0x40BF#16, 0x0000#16, 0x70B8#16, 0xB1C7#16] := by decide
set_option maxRecDepth 8000 in
theorem test_crc16_C9 :
    crc16 [0x31#8, 0x32#8, 0x33#8, 0x34#8, 0x35#8, 0x36#8, 0x37#8, 0x38#8, 0x39#8] = 0x4B37#16 := by decide

/-! ### One command on a small state -/

/-- After T6 of 95_test_vectors.md (bytes 0x01, 0x42 fed), with the decoder as given. -/
def fedTwo (d : Decoder) : State :=
  { State.reset with
    codec := { crc := 0x1180#16, h1 := 0x807E#16, h2 := 0xFFFF#16, t0 := 0x01#8, t1 := 0x42#8, fill := 2 }
    dec := d }

/-- The block of W2 (2200, 0, 1000, 0, 5000, 0, 1234, 500, 95, 0), loaded `n` times and not yet decoded. -/
def knownBlock (n : Fin 16) : Decoder :=
  { State.reset.dec with
    rb := #v[2200#16, 0#16, 1000#16, 0#16, 5000#16, 0#16, 1234#16, 500#16, 95#16, 0#16], rbn := n }

/-- The latches of program P3's end state. -/
def knownLatches : Latches :=
  { vraw := 2200#16, iraw := 1000#32, praw := 5000#32, eraw := 1234#32, fraw := 500#16, pfraw := 95#16 }

/-- One field of what a meaning answers. -/
def after {α : Type} (r : Result) (f : State → α) : Option α :=
  match r with
  | .next t => some (f t)
  | .fault _ => none
  | .refused _ => none

/-- T4. -/
theorem test_crcInit : after (exec .crcInit (fedTwo (knownBlock 3))) (fun t => (t.codec, t.dec.rbn)) =
    some (⟨0xFFFF#16, 0xFFFF#16, 0xFFFF#16, 0#8, 0#8, 0⟩, 3) := by decide
/-- T7. -/
theorem test_crcFeed : after (exec (.crcFeed 0x80#8) (fedTwo State.reset.dec)) (fun t => t.codec) =
    some ⟨0x0011#16, 0x1180#16, 0x807E#16, 0x42#8, 0x80#8, 2⟩ := by decide
/-- T5. -/
theorem test_crcFeed_first : after (exec (.crcFeed 0x01#8) State.reset) (fun t => (t.codec.crc, t.codec.fill)) =
    some (0x807E#16, 1) := by decide
/-- R105's example. -/
theorem test_crcGet : after (exec .crcGet (fedTwo State.reset.dec)) (fun t => t.rsp) =
    some (some ⟨.ok, 0x00001180#32⟩) := by decide
/-- R110. -/
theorem test_crcGet_after_reset : after (exec .crcGet State.reset) (fun t => t.rsp) =
    some (some ⟨.ok, 0xFFFF#32⟩) := by decide
/-- T2 and T3. -/
theorem test_frmTail :
    (after (exec (.frmTail .lo) (fedTwo State.reset.dec)) (fun t => t.rsp),
      after (exec (.frmTail .hi) (fedTwo State.reset.dec)) (fun t => t.rsp)) =
    (some (some ⟨.ok, 0x80#32⟩), some (some ⟨.ok, 0x11#32⟩)) := by decide
/-- V1, and the mismatch of the two bytes 01 42 with the CRC of no byte. -/
theorem test_frmChk_fails :
    (after (exec .frmChk State.reset) (fun t => t.rsp), after (exec .frmChk (fedTwo State.reset.dec)) (fun t => t.rsp)) =
    (some (some ⟨.invalidFrame, 2#32⟩), some (some ⟨.invalidFrame, 0#32⟩)) := by decide
/-- V5 at its FRMCHK: H2 = 0x1180, T0 = 0x80, T1 = 0x11. -/
theorem test_frmChk_valid :
    after (exec .frmChk { State.reset with codec := ⟨0x0000#16, 0x0011#16, 0x1180#16, 0x80#8, 0x11#8, 2⟩ })
      (fun t => t.rsp) = some (some ⟨.ok, 1#32⟩) := by decide
/-- R81's example. -/
theorem test_decClr : after (exec .decClr (fedTwo { knownBlock 10 with dv := true })) (fun t => (t.dec, t.codec.crc)) =
    some (knownBlock 0, 0x1180#16) := by decide
/-- R82's example. -/
theorem test_decLoad : after (exec (.decLoad 2200#16) State.reset) (fun t => (t.dec.rb[0], t.dec.rbn)) =
    some (2200#16, 1) := by decide
/-- D11: the eleventh load. -/
theorem test_decLoad_eleventh : after (exec (.decLoad 7#16) (fedTwo (knownBlock 10))) (fun t => t.dec) =
    some (knownBlock 11) := by decide
/-- W2 and P3. -/
theorem test_decRun : after (exec .decRun (fedTwo (knownBlock 10))) (fun t => (t.dec.latches, t.dec.dv)) =
    some (knownLatches, true) := by decide
/-- W2a: nine registers fail and clear DV. -/
theorem test_decRun_nine :
    after (exec .decRun (fedTwo { knownBlock 9 with dv := true })) (fun t => (t.rsp, t.dec.dv)) =
    some (some ⟨.invalidRegisterCount, 0#32⟩, false) := by decide
/-- D2: the largest current, INT 4294967 and FRAC 295. -/
theorem test_decRd :
    [View.raw, .int, .frac, .div].map (fun v =>
      after (exec (.decRd v .curr)
        { State.reset with dec := { State.reset.dec with
            latches := { knownLatches with iraw := 0xFFFFFFFF#32 }, dv := true } }) (fun t => t.rsp)) =
    [4294967295#32, 4294967#32, 295#32, 1000#32].map (fun d => some (some ⟨.ok, d⟩)) := by decide
/-- D9. -/
theorem test_decRd_not_ready : after (exec (.decRd .div .pf) State.reset) (fun t => t.rsp) =
    some (some ⟨.notReady, 0#32⟩) := by decide
/-- Vectors A1a, A1b, A1f, A1g, A1h, A1i, A1k. -/
theorem test_addrChk :
    [0#16, 1#16, 247#16, 248#16, 255#16, 256#16, 0xFFFF#16].map
      (fun a => after (exec (.addrChk a) State.reset) (fun t => t.rsp)) =
    [some (some ⟨.invalidAddress, 0#32⟩), some (some ⟨.ok, 1#32⟩), some (some ⟨.ok, 1#32⟩),
      some (some ⟨.invalidAddress, 0#32⟩), some (some ⟨.invalidAddress, 0#32⟩), some (some ⟨.invalidAddress, 0#32⟩),
      some (some ⟨.invalidAddress, 0#32⟩)] := by decide

/-! ### The step -/

/-- P4, step 2: an illegal word. -/
theorem test_step_illegal : after (step (State.reset.withFetchWord 32 0x00000000)) (fun t => t.captured) =
    some [⟨.illegalCommand, 0#32⟩] := by decide
/-- The very next step runs the fetched word, the host's other events stay (log entry 19). -/
theorem test_step_fetched :
    after (step ((State.reset.offer [.reset]).withFetchWord 32 0x02000001)) (fun t => (t.codec.t1, t.captured, t.pending)) =
    some (0x01#8, [okay], [.reset]) := by decide
theorem test_step_missed :
    after (step (State.reset.offer [.missed 0x03000000#32])) (fun t => (t.rsp, t.captured)) =
    some (some ⟨.ok, 0xFFFF#32⟩, []) := by decide

/-! ### Reading and assembling -/

/-- R86: IRAW = 1 reads as 0.001 and PFRAW = 95 as 0.95; D2's current reads 4294967.295. -/
theorem test_reading : Source.reading 1#32 .curr = "0.001".toList ∧ Source.reading 95#32 .pf = "0.95".toList ∧
    Source.reading 0xFFFFFFFF#32 .curr = "4294967.295".toList ∧ Source.reading 1234#32 .energy = "1234".toList := by
  decide
/-- W1: the decoded current of [0,0,1,0,0,0,0,0,0,0] is 1/1000. -/
theorem test_source_decode : (Source.decode [0#16, 0#16, 1#16, 0#16, 0#16, 0#16, 0#16, 0#16, 0#16, 0#16]).map
    (fun m => m.current) = some (1 / 1000) := by
  norm_num [Source.decode, Source.pair]
set_option maxRecDepth 8000 in
/-- V5, V6 and V2. -/
theorem test_validateFrame : Source.validateFrame [0x01#8, 0x42#8, 0x80#8, 0x11#8] = true ∧
    Source.validateFrame [0x01#8, 0x42#8, 0x11#8, 0x80#8] = false ∧ Source.validateFrame [0x01#8] = false := by decide
/-- R73's examples, the mnemonic in any case (R69). -/
theorem test_assemble : Assembler.assembleWords "CRC.Feed 0x42".toList = some [0x02000042#32] ∧
    Assembler.assembleWords "frm.tail hi".toList = some [0x04010000#32] ∧
    Assembler.assembleWords "dec.rd frac, curr".toList = some [0x13210000#32] := by decide
/-- R69: a number that does not fit is an assembly error. -/
theorem test_assemble_refuses : Assembler.assembleWords "crc.feed 256".toList = none ∧
    Assembler.assembleWords "frm.tail 2".toList = none ∧ Assembler.assembleWords "dec.load 65536".toList = none := by
  decide
/-- R70 and W5's payload. -/
theorem test_assemble_pseudo : Assembler.assembleWords "crc.compute 0x01, 0x42".toList =
    some [0x01000000#32, 0x02000001#32, 0x02000042#32, 0x03000000#32] := by decide

/-! ### Witnesses: for every statement with hypotheses, values that meet them -/

/-- AddrChkAcceptsExactly247, its second clause at both ends. -/
theorem witness_AddrChkAcceptsExactly247 : ((0#16 = 0#16 ∨ 248 ≤ (0#16).toNat) ∧
    ((248#16 : Half) = 0#16 ∨ 248 ≤ (248#16 : Half).toNat)) := by decide
/-- DecRunDecodesBlock, each clause, at the counts next to 10. -/
theorem witness_DecRunDecodesBlock : (fedTwo (knownBlock 10)).dec.rbn = 10 ∧ (fedTwo (knownBlock 9)).dec.rbn ≠ 10 ∧
    (fedTwo (knownBlock 11)).dec.rbn ≠ 10 := by decide
/-- DecRdReadsView, each clause. -/
theorem witness_DecRdReadsView : (fedTwo { knownBlock 10 with dv := true }).dec.dv = true ∧
    State.reset.dec.dv = false := by decide
/-- EncodeDecodeInverse (second clause), StepPerformsDecodedCommand and AssembleDisassembly. -/
theorem witness_legal_word : decode 0x13350000#32 = .command (.decRd .div .pf) ∧ legal 0x13350000#32 = true := by decide
/-- DecodeFollowsOpcodeMap: two rows that match one word (the same row), and a word with no row. -/
theorem witness_DecodeFollowsOpcodeMap :
    (⟨.decRd, 0x13000000#32, 0xFFC0FFFF#32⟩ : Row) ∈ opcodeMap ∧ 0x13350000#32 &&& 0xFFC0FFFF#32 = 0x13000000#32 ∧
    ∀ r ∈ opcodeMap, ¬(0x13060000#32 &&& r.mask = r.fixed ∧ r.extra 0x13060000#32 = true) := by decide
/-- IllegalWordWritesNothing. -/
theorem witness_IllegalWordWritesNothing : legal 0x13060000#32 = false ∧ legal 0x00000000#32 = false := by decide
/-- WaitingChangesNothing. -/
theorem witness_WaitingChangesNothing : State.reset.pending = [] := by decide
/-- PartsAreIndependent and ReadOnlyCommandsRepeat, each clause. -/
theorem witness_command_kinds : isDecoderCommand .decRun = true ∧ isDecoderCommand .frmChk = false ∧
    isReadOnly (.decRd .raw .pf) = true := by decide
/-- IdempotentCommands, its second clause at the largest count. -/
theorem witness_IdempotentCommands : (fedTwo (knownBlock 14)).dec.rbn.val < 15 := by decide
/-- RepeatedDecRunIsIdempotent. -/
theorem witness_RepeatedDecRunIsIdempotent : ∀ i ∈ [Instr.decRd .raw .pf, .crcInit, .addrChk 0#16],
    i.mnemonic ∉ [Mnemonic.decClr, .decLoad, .decRun] := by decide
/-- LoadCountDecidesDecRun, both starts. -/
theorem witness_LoadCountDecidesDecRun : offered .decClr ∈ [offered .decClr, HostEvent.reset] ∧
    HostEvent.reset ∈ [offered .decClr, HostEvent.reset] := by decide
/-- DecBlockRealisesDecode, both clauses, at the lengths next to 10. -/
theorem witness_DecBlockRealisesDecode : (List.replicate 9 5#16).length ≠ 10 ∧ (List.replicate 10 5#16).length = 10 ∧
    (List.replicate 11 5#16).length ≠ 10 := by decide
/-- FrmValidateRealisesValidateFrame, its last two clauses, at lengths 1 and 2. -/
theorem witness_FrmValidateRealisesValidateFrame : [0x01#8].length < 2 ∧
    [0x00#8, 0x00#8] = [] ++ [0x00#8, 0x00#8] ∧ (crc16 []).toNat ≠ (0x00#8).toNat + 256 * (0x00#8).toNat := by decide
set_option maxRecDepth 8000 in
/-- SingleByteChangeIsDetected, at the first and the last byte of V5's frame. -/
theorem witness_SingleByteChangeIsDetected :
    Source.validateFrame [0x01#8, 0x42#8, 0x80#8, 0x11#8] = true ∧ (0x80#8 : Byte) ≠ 0#8 ∧
    0 < [0x01#8, 0x42#8, 0x80#8, 0x11#8].length ∧ 3 < [0x01#8, 0x42#8, 0x80#8, 0x11#8].length := by decide
/-- FrameResidueIsZero and StepKeepsCodecCoherent: a coherent codec at each value of FILL (T5, T6 and reset). -/
theorem witness_coherent : State.reset.codec.Coherent ∧ (fedTwo State.reset.dec).codec.Coherent ∧
    Codec.Coherent ⟨0x807E#16, 0xFFFF#16, 0xFFFF#16, 0x00#8, 0x01#8, 1⟩ := by decide
/-- StepKeepsCodecCoherent and StepKeepsAgreement: a step that answers a next state. -/
theorem witness_step_next : step State.reset = .next State.reset.idle := rfl
/-- CrcByteIsLinearAndInjective, its second clause. -/
theorem witness_CrcByteIsLinearAndInjective : crcByte 0x1180#16 0x42#8 = crcByte 0x1180#16 0x42#8 := rfl
set_option maxRecDepth 8000 in
/-- CodecReflectsFedBytes: the codec after the bytes 01 42 (T6). -/
theorem witness_CodecReflectsFedBytes : (fedTwo State.reset.dec).codec.Reflects [0x01#8, 0x42#8] where
  crc := by decide
  fill := by decide
  h1 := by decide
  h2 := by decide
  t1 := by decide
  t0 := by decide
/-- DecoderReflectsLoads: a decoder after two loads and no decode. -/
theorem witness_DecoderReflectsLoads :
    (knownBlock 2).Reflects { loads := [2200#16, 0#16], decoded := none } where
  rbn := by decide
  rb := by
    intro i hi v hv
    match i, hv with
    | 0, hv => cases hv; rfl
    | 1, hv => cases hv; rfl
  dv := by decide
  latches := by intro regs h; cases h
/-- StepKeepsAgreement: two different states that agree (T0 and T1 differ before the first byte). -/
theorem witness_StepKeepsAgreement :
    State.reset.Agree (State.resetWith 1#8 2#8 (Vector.replicate 10 7#16) knownLatches) ∧
    State.reset ≠ State.resetWith 1#8 2#8 (Vector.replicate 10 7#16) knownLatches := by
  refine ⟨⟨⟨rfl, rfl, rfl, rfl, fun h => absurd rfl h, fun h => by cases h⟩,
    ⟨rfl, fun i _ h => absurd h (Nat.not_lt_zero i), rfl, fun h => by cases h⟩, rfl, rfl, rfl⟩, by decide⟩
/-- PortResetAndRecovery, both clauses; the second at k = P_RESET_RECOVERY. -/
theorem witness_PortResetAndRecovery :
    (⟨false, true, 0x01000000#32⟩ : PortIn).rstN = false ∧
    (∀ i ∈ List.replicate (Config.resetRecovery + 1) (⟨true, true, 0#32⟩ : PortIn), i.rstN = true) ∧
    Config.resetRecovery < (List.replicate (Config.resetRecovery + 1) (⟨true, true, 0#32⟩ : PortIn)).length := by
  simp
/-- PortAnswersAfterLatency: an idle block, CRCGET accepted, and as many cycles as its latency. -/
theorem witness_PortAnswersAfterLatency : ∃ (p : Port) (i : PortIn) (is : List PortIn) (t : State) (r : Response),
    p.phase = .idle ∧ (cycle i p).2.cmdReady = true ∧ i.cmdValid = true ∧ (∀ j ∈ is, j.rstN = true) ∧
    is.length = latency i.cmd ∧ accept i.cmd (cycle i p).1.core = .next t ∧ t.rsp = some r :=
  ⟨{ core := State.reset, phase := .idle }, ⟨true, true, 0x03000000#32⟩,
    List.replicate (latency 0x03000000#32) ⟨true, false, 0#32⟩, State.reset.respond .ok 0xFFFF#32,
    ⟨.ok, 0xFFFF#32⟩, rfl, rfl, rfl, by simp, by simp, rfl, rfl⟩
/-- PortAnswersAfterLatency in a presenting cycle, where the free value of log entry 14 lets one accept: CRCGET
accepted as the response of CRCFEED 0x01 is presented (T5: CRC = 0x807E). -/
theorem witness_PortAnswersAfterLatency_presenting (h : Config.readyWhilePresenting = true) :
    ∃ (p : Port) (i : PortIn) (t : State), p.phase = .busy 0x02000001#32 0 ∧ (cycle i p).2.cmdReady = true ∧
      i.cmdValid = true ∧ accept i.cmd (cycle i p).1.core = .next t ∧ t.rsp = some ⟨.ok, 0x0000807E#32⟩ :=
  ⟨{ core := State.reset, phase := .busy 0x02000001#32 0 }, ⟨true, true, 0x03000000#32⟩,
    { performed 0x02000001#32 State.reset with rsp := some ⟨.ok, 0x0000807E#32⟩ }, rfl, h, rfl, rfl, rfl⟩
/-- PortResetAbandonsCommand. -/
theorem witness_PortResetAbandonsCommand : ∃ (p : Port) (w : Word) (left : Nat) (is : List PortIn) (i : PortIn),
    p.phase = .busy w left ∧ (∀ j ∈ is, j.rstN = true) ∧ is.length ≤ left ∧ i.rstN = false :=
  ⟨{ core := State.reset, phase := .busy 0x03000000#32 2 }, 0x03000000#32, 2,
    [⟨true, false, 0#32⟩, ⟨true, true, 0#32⟩], ⟨false, false, 0#32⟩, rfl, by decide, by decide, rfl⟩
/-- PortHostIsNeverStuck and PortRefinesSteps: cycles without reset, from an idle block. -/
theorem witness_PortRefinesSteps : (∀ i ∈ [(⟨true, true, 0x02000001#32⟩ : PortIn)], i.rstN = true) ∧
    ∀ w left, ({ core := State.reset, phase := .idle } : Port).phase ≠ .busy w left := by
  simp

end Sys2Proof.Tests
end

section
/-! PROOFS. The state of PMCORE (10_state.md): the run's induction, said once, and the statements about the decoder's
history (R29, R31), the unspecified elements (R35), the two parts (R38), waiting (R20, R155) and reset (R34). -/

namespace Sys2Proof.Machine

/-! ### Runs of host events -/

/-- The induction over a run, once for all invariants: what every event keeps, between the state and a value `a` that
the events carry along (a history, or a second machine's state), holds after all of them. -/
theorem serveAll_keeps {α : Type} {next : α → HostEvent → α} {P : State → α → Prop}
    (keeps : ∀ e s a, P s a → P (afterEvent e s) (next a e)) (es : List HostEvent) {s : State} {a : α} (h : P s a) :
    ∃ t, serveAll es s = .next t ∧ P t (es.foldl next a) := by
  refine ⟨_, serveAll_eq es s, ?_⟩
  induction es generalizing s a with
  | nil => exact h
  | cons e es ih => exact ih (keeps e s a h)

/-! ### The decoder's four updates, field by field (R81, R82, R83) -/

@[simp] theorem clearBlock_rb (d : Decoder) : (clearBlock d).rb = d.rb := rfl
@[simp] theorem clearBlock_rbn (d : Decoder) : (clearBlock d).rbn = 0 := rfl
@[simp] theorem clearBlock_latches (d : Decoder) : (clearBlock d).latches = d.latches := rfl
@[simp] theorem clearBlock_dv (d : Decoder) : (clearBlock d).dv = false := rfl

@[simp] theorem loadRegister_rbn (d : Decoder) (v : Half) : (loadRegister d v).rbn = bumpRbn d.rbn := rfl
@[simp] theorem loadRegister_latches (d : Decoder) (v : Half) : (loadRegister d v).latches = d.latches := rfl
@[simp] theorem loadRegister_dv (d : Decoder) (v : Half) : (loadRegister d v).dv = d.dv := rfl

@[simp] theorem latchFields_rb (d : Decoder) : (latchFields d).rb = d.rb := rfl
@[simp] theorem latchFields_rbn (d : Decoder) : (latchFields d).rbn = d.rbn := rfl
@[simp] theorem latchFields_latches (d : Decoder) : (latchFields d).latches = rawFields d.rb := rfl
@[simp] theorem latchFields_dv (d : Decoder) : (latchFields d).dv = true := rfl

@[simp] theorem invalidate_rb (d : Decoder) : (invalidate d).rb = d.rb := rfl
@[simp] theorem invalidate_rbn (d : Decoder) : (invalidate d).rbn = d.rbn := rfl
@[simp] theorem invalidate_latches (d : Decoder) : (invalidate d).latches = d.latches := rfl
@[simp] theorem invalidate_dv (d : Decoder) : (invalidate d).dv = false := rfl

/-! ### The history of the register decoder (R28 to R31) -/

/-- A decoder with RBN and DV at 0 reflects the empty history, whatever its block and latches hold. -/
theorem Decoder.reflects_start {d : Decoder} (hn : d.rbn = 0) (hv : d.dv = false) :
    d.Reflects BlockHistory.start where
  rbn := by simp [hn, BlockHistory.start]
  rb := by simp [BlockHistory.start]
  dv := by simp [hv, BlockHistory.start]
  latches := by simp [BlockHistory.start]

/-- Below the saturation at 15, RBN tells the number of loads: DECRUN's check is that there were ten. -/
theorem Decoder.Reflects.blockComplete_iff {d : Decoder} {h : BlockHistory} (hr : d.Reflects h) :
    blockComplete d = true ↔ h.loads.length = 10 := by
  rw [Machine.blockComplete_iff, hr.rbn]
  omega

/-- After exactly ten loads they are the whole block. -/
theorem Decoder.Reflects.rb_eq_blockOf {d : Decoder} {h : BlockHistory} (hr : d.Reflects h)
    (hten : h.loads.length = 10) : d.rb = blockOf h.loads := by
  ext i hi
  have hlt : i < h.loads.length := by omega
  rw [hr.rb i hi _ (List.getElem?_eq_getElem hlt)]
  simp [blockOf, hlt]

/-- One more DECLOAD: below ten loads RBN is the index of the new one, and from ten on it points past the block. -/
theorem Decoder.Reflects.loadRegister {d : Decoder} {h : BlockHistory} (hr : d.Reflects h) (v : Half) :
    (loadRegister d v).Reflects { h with loads := h.loads ++ [v] } where
  rbn := by
    simp only [loadRegister_rbn, bumpRbn_val, hr.rbn, List.length_append, List.length_singleton]
    omega
  rb i hi u hu := by
    have hn := hr.rbn
    rw [loadRegister_rb]
    rcases Nat.lt_or_ge i h.loads.length with hold | hnew
    · rw [List.getElem?_append_left hold] at hu
      rw [if_neg (by omega), hr.rb i hi u hu]
    · rw [List.getElem?_append_right hnew, List.getElem?_singleton] at hu
      have hi' : i = h.loads.length := by
        by_contra hne
        simp [show i - h.loads.length ≠ 0 by omega] at hu
      rw [if_pos (by omega)]
      simpa [hi'] using hu
  dv := hr.dv
  latches := hr.latches

/-- DECRUN: with ten loads the latches hold their block's fields, otherwise nothing is decoded any more. -/
theorem Decoder.Reflects.decRun {d : Decoder} {h : BlockHistory} (hr : d.Reflects h) :
    (decAfter .decRun d).Reflects (blockAfterInstr h .decRun) := by
  simp only [decAfter, blockAfterInstr]
  by_cases hten : h.loads.length = 10
  · rw [if_pos hten, if_pos (hr.blockComplete_iff.mpr hten)]
    refine ⟨hr.rbn, hr.rb, rfl, fun regs hregs => ?_⟩
    cases hregs
    exact congrArg rawFields (hr.rb_eq_blockOf hten)
  · rw [if_neg hten, if_neg (mt hr.blockComplete_iff.mp hten)]
    exact ⟨hr.rbn, hr.rb, rfl, nofun⟩

/-- Every command takes the decoder along with its history. -/
theorem Decoder.Reflects.decAfter {d : Decoder} {h : BlockHistory} (hr : d.Reflects h) (i : Instr) :
    (decAfter i d).Reflects (blockAfterInstr h i) := by
  cases i with
  | decClr => exact Decoder.reflects_start rfl rfl
  | decLoad v => exact hr.loadRegister v
  | decRun => exact hr.decRun
  | crcInit | crcFeed | crcGet | frmTail | frmChk | decRd | addrChk => exact hr

/-- So does every accepted word, captured or not: an illegal one changes neither. -/
theorem Decoder.Reflects.decAfterWord {d : Decoder} {h : BlockHistory} (hr : d.Reflects h) (w : Word) :
    (decAfterWord w d).Reflects (blockAfterEvent h (.command w)) := by
  simp only [Machine.decAfterWord, blockAfterEvent]
  cases decode w with
  | command i => exact hr.decAfter i
  | illegal why => exact hr

/-- And every host event: a reset starts the history again. -/
theorem afterEvent_reflects_block (e : HostEvent) (s : State) (h : BlockHistory) (hr : s.dec.Reflects h) :
    (afterEvent e s).dec.Reflects (blockAfterEvent h e) := by
  cases e with
  | command w | missed w => exact hr.decAfterWord w
  | reset | abandoned w => exact Decoder.reflects_start rfl rfl

/-- Settles O47: every host event keeps the relation between the decoder and its history. -/
theorem decoderReflectsLoads : Obligations.DecoderReflectsLoads :=
  ⟨Decoder.reflects_start rfl rfl, fun es _ _ hr =>
    serveAll_keeps (P := fun s h => s.dec.Reflects h) afterEvent_reflects_block es hr⟩

/-! ### States that no response can tell apart (R35) -/

theorem Codec.Agree.refl (c : Codec) : c.Agree c := ⟨rfl, rfl, rfl, rfl, fun _ => rfl, fun _ => rfl⟩

theorem Decoder.Agree.refl (d : Decoder) : d.Agree d := ⟨rfl, fun _ _ _ => rfl, rfl, fun _ => rfl⟩

/-- A second byte is counted only after a first. -/
theorem fill_ne_zero_of_bumpFill_eq_two {f : Fin 3} (h : bumpFill f = 2) : f ≠ 0 := by
  rintro rfl
  exact absurd h (by decide)

/-- A byte more: T1 is the byte itself, and T0 counts from the second byte on, when T1 counted before. -/
theorem Codec.Agree.feedByte {c c' : Codec} (h : c.Agree c') (b : Byte) : (feedByte c b).Agree (feedByte c' b) where
  crc := congrArg (crcByte · b) h.crc
  h1 := h.crc
  h2 := h.h1
  fill := congrArg bumpFill h.fill
  t1 _ := rfl
  t0 h2 := h.t1 (fill_ne_zero_of_bumpFill_eq_two h2)

theorem Codec.Agree.codecAfter {c c' : Codec} (h : c.Agree c') (i : Instr) :
    (codecAfter i c).Agree (codecAfter i c') := by
  cases i with
  | crcInit => exact Codec.Agree.refl codecStart
  | crcFeed b => exact h.feedByte b
  | crcGet | frmTail | frmChk | decClr | decLoad | decRun | decRd | addrChk => exact h

/-- FRMCHK reads T0 and T1 only once two bytes have been fed. -/
theorem Codec.Agree.frameVerdict_eq {c c' : Codec} (h : c.Agree c') : frameVerdict c = frameVerdict c' := by
  unfold frameVerdict
  rw [← h.fill, ← h.h2]
  by_cases hshort : c.fill < 2
  · rw [if_pos hshort, if_pos hshort]
  · have htwo : c.fill = 2 := by omega
    rw [h.t0 htwo, h.t1 (by rw [htwo]; decide)]

theorem Decoder.Agree.blockComplete_eq {d d' : Decoder} (h : d.Agree d') : blockComplete d = blockComplete d' := by
  simp only [blockComplete, h.rbn]

/-- The new register is the same in both, and the ones below it were before. -/
theorem Decoder.Agree.loadRegister {d d' : Decoder} (h : d.Agree d') (v : Half) :
    (loadRegister d v).Agree (loadRegister d' v) where
  rbn := congrArg bumpRbn h.rbn
  rb i hi hlt := by
    rw [loadRegister_rbn, bumpRbn_val] at hlt
    rw [loadRegister_rb, loadRegister_rb, ← h.rbn]
    by_cases hnew : i = d.rbn.val
    · rw [if_pos hnew, if_pos hnew]
    · rw [if_neg hnew, if_neg hnew, h.rb i hi (by omega)]
  dv := h.dv
  latches := h.latches

/-- A complete block has no unspecified register. -/
theorem Decoder.Agree.rb_eq {d d' : Decoder} (h : d.Agree d') (hten : blockComplete d = true) : d.rb = d'.rb := by
  rw [blockComplete_iff] at hten
  ext i hi
  rw [h.rb i hi (by omega)]

/-- DECRUN latches a complete block only, and otherwise leaves the latches unspecified. -/
theorem Decoder.Agree.decRun {d d' : Decoder} (h : d.Agree d') :
    (decAfter .decRun d).Agree (decAfter .decRun d') := by
  simp only [Machine.decAfter, ← h.blockComplete_eq]
  by_cases hten : blockComplete d = true
  · rw [if_pos hten, if_pos hten]
    exact ⟨h.rbn, h.rb, rfl, fun _ => congrArg rawFields (h.rb_eq hten)⟩
  · rw [if_neg hten, if_neg hten]
    exact ⟨h.rbn, h.rb, rfl, nofun⟩

theorem Decoder.Agree.decAfter {d d' : Decoder} (h : d.Agree d') (i : Instr) :
    (decAfter i d).Agree (decAfter i d') := by
  cases i with
  | decClr => exact ⟨rfl, fun i _ hlt => absurd hlt (Nat.not_lt_zero i), rfl, nofun⟩
  | decLoad v => exact h.loadRegister v
  | decRun => exact h.decRun
  | crcInit | crcFeed | crcGet | frmTail | frmChk | decRd | addrChk => exact h

/-- No response depends on an unspecified element (R35). -/
theorem responseOf_eq_of_agree {c c' : Codec} {d d' : Decoder} (hc : c.Agree c') (hd : d.Agree d') (i : Instr) :
    responseOf i c d = responseOf i c' d' := by
  cases i with
  | crcGet | frmTail => simp only [responseOf, hc.crc]
  | frmChk => simp only [responseOf, hc.frameVerdict_eq]
  | decRun => simp only [responseOf, hd.blockComplete_eq]
  | decRd view field =>
    simp only [responseOf, ← hd.dv]
    by_cases hv : d.dv = true
    · rw [hd.latches hv]
    · rw [if_neg hv, if_neg hv]
  | crcInit | crcFeed | decClr | decLoad | addrChk => rfl

theorem Codec.Agree.codecAfterWord {c c' : Codec} (h : c.Agree c') (w : Word) :
    (codecAfterWord w c).Agree (codecAfterWord w c') := by
  unfold Machine.codecAfterWord
  cases decode w with
  | command i => exact h.codecAfter i
  | illegal why => exact h

theorem Decoder.Agree.decAfterWord {d d' : Decoder} (h : d.Agree d') (w : Word) :
    (decAfterWord w d).Agree (decAfterWord w d') := by
  unfold Machine.decAfterWord
  cases decode w with
  | command i => exact h.decAfter i
  | illegal why => exact h

theorem responseOfWord_eq_of_agree {c c' : Codec} {d d' : Decoder} (hc : c.Agree c') (hd : d.Agree d') (w : Word) :
    responseOfWord w c d = responseOfWord w c' d' := by
  unfold responseOfWord
  cases decode w with
  | command i => exact responseOf_eq_of_agree hc hd i
  | illegal why => rfl

/-- Agreement survives giving both states the same future host events. -/
theorem State.Agree.withPending {s s' : State} (h : s.Agree s') (es : List HostEvent) :
    State.Agree { s with pending := es } { s' with pending := es } :=
  ⟨h.codec, h.dec, h.rsp, h.captured, rfl⟩

/-- Every host event keeps two states in agreement, response and captured responses included. -/
theorem State.Agree.afterEvent {s s' : State} (h : s.Agree s') (e : HostEvent) :
    (afterEvent e s).Agree (afterEvent e s') := by
  have hr (w : Word) := responseOfWord_eq_of_agree h.codec h.dec w
  cases e with
  | command w =>
    exact ⟨h.codec.codecAfterWord w, h.dec.decAfterWord w, congrArg some (hr w),
      congrArg₂ (· ++ [·]) h.captured (hr w), h.pending⟩
  | missed w =>
    exact ⟨h.codec.codecAfterWord w, h.dec.decAfterWord w, congrArg some (hr w), h.captured, h.pending⟩
  | reset | abandoned w => exact ⟨Codec.Agree.refl _, Decoder.Agree.refl _, rfl, rfl, h.pending⟩

/-- Settles O50: both states serve the same next event, or both wait. -/
theorem stepKeepsAgreement : Obligations.StepKeepsAgreement := by
  intro s s' t h hstep
  cases hp : s.pending with
  | nil =>
    rw [step_nil hp] at hstep
    cases hstep
    exact ⟨s'.idle, step_nil (h.pending ▸ hp), h.codec, h.dec, rfl, h.captured, h.pending⟩
  | cons e rest =>
    rw [step_cons hp] at hstep
    cases hstep
    exact ⟨_, step_cons (h.pending ▸ hp), (h.withPending rest).afterEvent e⟩

/-- Reset leaves FILL, RBN and DV at 0, where agreement asks nothing of T0, T1, RB and the latches. -/
theorem reset_agree_resetWith (t0 t1 : Byte) (rb : Vector Half 10) (l : Latches) :
    State.reset.Agree (State.resetWith t0 t1 rb l) where
  codec := ⟨rfl, rfl, rfl, rfl, fun h => absurd rfl h, nofun⟩
  dec := ⟨rfl, fun i _ hlt => absurd hlt (Nat.not_lt_zero i), rfl, nofun⟩
  rsp := rfl
  captured := rfl
  pending := rfl

/-- Settles O51: the two runs agree at reset and every event keeps them in agreement. -/
theorem unspecifiedResetValuesUnobservable : Obligations.UnspecifiedResetValuesUnobservable := by
  intro t0 t1 rb l es
  obtain ⟨t, ht, hagree⟩ := serveAll_keeps (P := State.Agree) (fun e _ _ h => h.afterEvent e) es
    (reset_agree_resetWith t0 t1 rb l)
  exact ⟨t, _, ht, serveAll_eq es _, hagree.captured, hagree.rsp⟩

/-! ### The two parts (R38) -/

theorem codecAfter_of_decoderCommand {i : Instr} (h : isDecoderCommand i = true) (c : Codec) :
    codecAfter i c = c := by
  cases i with
  | decClr | decLoad | decRun | decRd => rfl
  | crcInit | crcFeed | crcGet | frmTail | frmChk | addrChk => cases h

theorem responseOf_of_decoderCommand {i : Instr} (h : isDecoderCommand i = true) (c c' : Codec) (d : Decoder) :
    responseOf i c d = responseOf i c' d := by
  cases i with
  | decClr | decLoad | decRun | decRd => rfl
  | crcInit | crcFeed | crcGet | frmTail | frmChk | addrChk => cases h

theorem decAfter_of_otherCommand {i : Instr} (h : isDecoderCommand i = false) (d : Decoder) :
    decAfter i d = d := by
  cases i with
  | decClr | decLoad | decRun | decRd => cases h
  | crcInit | crcFeed | crcGet | frmTail | frmChk | addrChk => rfl

theorem responseOf_of_otherCommand {i : Instr} (h : isDecoderCommand i = false) (c : Codec) (d d' : Decoder) :
    responseOf i c d = responseOf i c d' := by
  cases i with
  | decClr | decLoad | decRun | decRd => cases h
  | crcInit | crcFeed | crcGet | frmTail | frmChk | addrChk => rfl

/-- Settles O33: a command writes one part at most, and its response and writes come from that part alone. -/
theorem partsAreIndependent : Obligations.PartsAreIndependent := by
  intro i s
  refine ⟨_, exec_eq i s, fun h => ⟨codecAfter_of_decoderCommand h _, fun c => ?_⟩,
    fun h => ⟨decAfter_of_otherCommand h _, fun d => ?_⟩⟩
  · rw [exec_eq, codecAfter_of_decoderCommand h, responseOf_of_decoderCommand h c s.codec]
  · rw [exec_eq, decAfter_of_otherCommand h, responseOf_of_otherCommand h s.codec d s.dec]

/-! ### The response port, cycle by cycle (R20) -/

/-- An accepted word always answers a next state, so `performed` never falls back on the state before. -/
theorem accept_eq_performed (w : Word) (s : State) : accept w s = .next (performed w s) := by
  rw [accept_eq, performed_eq]

theorem performed_of_accept {w : Word} {s t : State} (h : accept w s = .next t) : performed w s = t := by
  rw [accept_eq_performed] at h
  exact Host.Outcome.next.inj h

/-- An offer in a cycle with `cmd_ready` = 1 starts the count of its latency. -/
theorem takeOffer_accepting {i : PortIn} (hv : i.cmdValid = true) :
    takeOffer true i = .busy i.cmd (latency i.cmd - 1) := by
  simp [takeOffer, hv]

/-- The cycles of a command in progress: `left` silent ones with `cmd_ready` = 0, then the one that presents its
response. -/
theorem cycles_busy {w : Word} {left : Nat} {is : List PortIn} {p : Port} (hp : p.phase = .busy w left)
    (hrst : ∀ j ∈ is, j.rstN = true) (hlen : is.length = left + 1) :
    (cycles is p).1.core = performed w p.core ∧
    (cycles is p).2 = List.replicate left { cmdReady := false, rsp := none } ++
      [{ cmdReady := Config.readyWhilePresenting, rsp := (performed w p.core).rsp }] := by
  induction left generalizing is p with
  | zero =>
    obtain ⟨j, rfl⟩ := List.length_eq_one_iff.mp hlen
    simp [cycles, cycle_busy_zero (hrst j (by simp)) hp]
  | succ n ih =>
    obtain ⟨j, js, rfl⟩ := List.exists_cons_of_length_eq_add_one hlen
    have hrest := ih (p := { p with phase := .busy w n }) rfl (fun k hk => hrst k (List.mem_cons_of_mem j hk))
      (by simpa using hlen)
    simpa [cycles, cycle_busy_succ (hrst j (by simp)) hp, List.replicate_succ] using hrest

/-- A cycle that accepts a word: an idle block, or one presenting the previous command's response at the state that
command leaves; in both the word is in progress from the next cycle on. -/
theorem accepting_cycle {i : PortIn} {p : Port} (hready : (cycle i p).2.cmdReady = true) (hv : i.cmdValid = true) :
    (cycle i p).1.phase = .busy i.cmd (latency i.cmd - 1) ∧
    (p.phase = .idle ∧ (cycle i p).1.core = p.core ∧ (cycle i p).2.rsp = none ∨
      ∃ w, p.phase = .busy w 0 ∧ accept w p.core = .next (cycle i p).1.core ∧
        (cycle i p).2.rsp = (cycle i p).1.core.rsp) := by
  obtain ⟨hrst, hidle | ⟨w, hbusy, hcfg⟩⟩ := cmdReady_cases hready
  · rw [cycle_idle hrst hidle]
    exact ⟨takeOffer_accepting hv, .inl ⟨hidle, rfl, rfl⟩⟩
  · rw [cycle_busy_zero hrst hbusy, hcfg]
    exact ⟨takeOffer_accepting hv, .inr ⟨w, hbusy, accept_eq_performed w p.core, rfl⟩⟩

/-- Settles O54: the accepting cycle leaves the word in progress with its latency less one to go. -/
theorem portAnswersAfterLatency : Obligations.PortAnswersAfterLatency := by
  intro p i is t r hready hv hrst hlen hacc hrsp
  have hlat : 1 ≤ latency i.cmd := Nat.le_add_left 1 _
  obtain ⟨hphase, hbefore⟩ := accepting_cycle hready hv
  obtain ⟨hcore, houts⟩ := cycles_busy hphase hrst (by omega)
  rw [performed_of_accept hacc] at hcore houts
  exact ⟨hlat, hbefore, hcore, Config.readyWhilePresenting, hrsp ▸ houts⟩

/-! ### Waiting and reset (R20, R34) -/

/-- Settles O24: a step with nothing to serve is `State.idle`. -/
theorem waitingChangesNothing : Obligations.WaitingChangesNothing := fun _ h => step_nil h

/-- Settles O31: the reset state is written with R34's values. -/
theorem resetStateValues : Obligations.ResetStateValues := ⟨rfl, rfl, rfl, rfl, rfl, rfl, rfl⟩

/-- With no byte fed, coherence asks only that CRC, H1 and H2 stand at the initial value. -/
theorem Codec.coherent_of_fill_zero {c : Codec} (hf : c.fill = 0)
    (h : c.crc = Config.crcInit ∧ c.h1 = Config.crcInit ∧ c.h2 = Config.crcInit) : c.Coherent := by
  refine ⟨fun _ => h, fun hone => ?_, fun htwo => ?_⟩
  · exact absurd (hf.symm.trans hone) (by decide)
  · exact absurd (hf.symm.trans htwo) (by decide)

/-- Settles O49: reset leaves FILL = 0 with CRC, H1 and H2 at 0xFFFF. -/
theorem resetCodecIsCoherent : Obligations.ResetCodecIsCoherent :=
  Codec.coherent_of_fill_zero rfl ⟨rfl, rfl, rfl⟩

end Sys2Proof.Machine
end

section
/-! PROOFS. Commands and transactions (20_memory.md): the ports refine the steps (R50, R20), which commands write
nothing and which are idempotent (R48), and the step of a decoded word (R50, R152). -/

namespace Sys2Proof.Machine

/-! ### The ports refine the steps (R20, R50)

The words accepted so far are those answered and then the one in progress; every cycle keeps that, and keeps the codec
and the decoder those that the steps of the answered words give. -/

/-- The accepted word that a phase has yet to answer, if there is one: at most one (R20). -/
def Phase.inProgress : Phase → List Word
  | .recovering _ | .idle => []
  | .busy w _ => [w]

@[simp] theorem inProgress_recovering (n : Nat) : (Phase.recovering n).inProgress = [] := rfl
@[simp] theorem inProgress_idle : Phase.idle.inProgress = [] := rfl
@[simp] theorem inProgress_busy (w : Word) (n : Nat) : (Phase.busy w n).inProgress = [w] := rfl

theorem length_inProgress_le (ph : Phase) : ph.inProgress.length ≤ 1 := by
  cases ph <;> simp

theorem inProgress_eq_nil {ph : Phase} (h : ∀ w left, ph ≠ .busy w left) : ph.inProgress = [] := by
  cases ph with
  | recovering n => rfl
  | idle => rfl
  | busy w left => exact absurd rfl (h w left)

/-- The first cycle's accepted word comes before those of the later cycles. -/
theorem acceptedWords_cons (i : PortIn) (is : List PortIn) (o : PortOut) (os : List PortOut) :
    acceptedWords (i :: is) (o :: os) = acceptedWords [i] [o] ++ acceptedWords is os := by
  cases h : i.cmdValid && o.cmdReady <;> simp [acceptedWords, h]

/-- The first cycle's response comes before those of the later cycles. -/
theorem responses_cons (o : PortOut) (os : List PortOut) : responses (o :: os) = o.rsp.toList ++ responses os := by
  cases h : o.rsp <;> simp [responses, h]

/-- No word is accepted in a cycle with `cmd_ready` = 0. -/
theorem acceptedWords_of_not_ready (i : PortIn) (r : Option Response) :
    acceptedWords [i] [{ cmdReady := false, rsp := r }] = [] := by
  simp [acceptedWords]

/-- The word that an offer puts in progress is the word that its cycle accepts. -/
theorem inProgress_takeOffer (ready : Bool) (i : PortIn) (r : Option Response) :
    (takeOffer ready i).inProgress = acceptedWords [i] [{ cmdReady := ready, rsp := r }] := by
  cases hv : i.cmdValid <;> cases ready <;> simp [takeOffer, acceptedWords, hv]

/-- What a cycle without reset can do: it presents no response and keeps the state, or it answers the word in progress;
either way a word that it accepts is in progress next. -/
theorem cycle_silent_or_answers {i : PortIn} (p : Port) (hrst : i.rstN = true) :
    ((cycle i p).1.core = p.core ∧ (cycle i p).2.rsp = none ∧
      (cycle i p).1.phase.inProgress = p.phase.inProgress ++ acceptedWords [i] [(cycle i p).2]) ∨
    ∃ w, p.phase.inProgress = [w] ∧ (cycle i p).1.core = performed w p.core ∧
      (cycle i p).2.rsp = some (responseOfWord w p.core.codec p.core.dec) ∧
      (cycle i p).1.phase.inProgress = acceptedWords [i] [(cycle i p).2] := by
  cases hp : p.phase with
  | recovering n =>
    cases n with
    | zero => simp [cycle_recovering_zero hrst hp, acceptedWords_of_not_ready]
    | succ n => simp [cycle_recovering_succ hrst hp, acceptedWords_of_not_ready]
  | idle =>
    rw [cycle_idle hrst hp]
    exact .inl ⟨rfl, rfl, inProgress_takeOffer true i none⟩
  | busy w n =>
    cases n with
    | zero =>
      rw [cycle_busy_zero hrst hp]
      exact .inr ⟨w, rfl, rfl, by rw [performed_eq], inProgress_takeOffer _ i _⟩
    | succ n => simp [cycle_busy_succ hrst hp, acceptedWords_of_not_ready]

/-- One more event after a run. -/
theorem serveAll_concat {es : List HostEvent} {s t : State} (h : serveAll es s = .next t) (e : HostEvent) :
    serveAll (es ++ [e]) s = .next (afterEvent e t) := by
  rw [serveAll_eq] at h ⊢
  rw [List.foldl_concat, Host.Outcome.next.inj h]

/-- The block has accepted the words `ws` and presented the responses `rs`, in step with the machine that started from
`s`: all but the word in progress are answered, as the steps answer them, and the codec and the decoder are those of
the steps (log entry 15). -/
def Port.Follows (p : Port) (s : State) (ws : List Word) (rs : List Response) : Prop :=
  ∃ answered t, ws = answered ++ p.phase.inProgress ∧ answered.length = rs.length ∧
    serveAll (answered.map .command) s = .next t ∧
    t.captured = rs ∧ t.codec = p.core.codec ∧ t.dec = p.core.dec

/-- With no command in progress the block follows the machine that stands in its state. -/
theorem Port.follows_start {p : Port} (h : ∀ w left, p.phase ≠ .busy w left) :
    p.Follows { p.core with captured := [], pending := [] } [] [] :=
  ⟨[], _, (inProgress_eq_nil h).symm, rfl, rfl, rfl, rfl, rfl⟩

/-- A cycle that answers the word in progress is one step of the machine; any other is none. -/
theorem Port.Follows.cycle {p : Port} {s : State} {ws : List Word} {rs : List Response} (hf : p.Follows s ws rs)
    {i : PortIn} (hrst : i.rstN = true) :
    (cycle i p).1.Follows s (ws ++ acceptedWords [i] [(cycle i p).2]) (rs ++ (cycle i p).2.rsp.toList) := by
  obtain ⟨answered, t, hws, hlen, hrun, hcap, hcodec, hdec⟩ := hf
  obtain ⟨hcore, hrsp, hnext⟩ | ⟨w, hw, hcore, hrsp, hnext⟩ := cycle_silent_or_answers p hrst
  · refine ⟨answered, t, ?_, ?_, hrun, ?_, ?_, ?_⟩
    · rw [hws, hnext, List.append_assoc]
    · simp [hrsp, hlen]
    · simp [hrsp, hcap]
    · rw [hcore, hcodec]
    · rw [hcore, hdec]
  · refine ⟨answered ++ [w], afterEvent (.command w) t, ?_, ?_, ?_, ?_, ?_, ?_⟩
    · rw [hws, hnext, hw]
    · simp [hrsp, hlen]
    · rw [List.map_append]
      exact serveAll_concat hrun (.command w)
    · simp [afterEvent, hrsp, hcap, hcodec, hdec]
    · simp [afterEvent, hcore, performed_eq, hcodec]
    · simp [afterEvent, hcore, performed_eq, hdec]

/-- So it goes on over any sequence of cycles without reset. -/
theorem Port.Follows.cycles {s : State} {is : List PortIn} (hrst : ∀ i ∈ is, i.rstN = true) {p : Port}
    {ws : List Word} {rs : List Response} (hf : p.Follows s ws rs) :
    (cycles is p).1.Follows s (ws ++ acceptedWords is (cycles is p).2) (rs ++ responses (cycles is p).2) := by
  induction is generalizing p ws rs with
  | nil => simpa [Machine.cycles, acceptedWords, responses] using hf
  | cons i is ih =>
    have hrest := ih (fun j hj => hrst j (List.mem_cons_of_mem i hj)) (hf.cycle (hrst i List.mem_cons_self))
    simpa only [Machine.cycles, acceptedWords_cons i is, responses_cons, List.append_assoc] using hrest

/-- A block that follows the machine has answered all words but one at most, in order and as the steps do. -/
theorem Port.Follows.answers {p : Port} {s : State} {ws : List Word} {rs : List Response} (hf : p.Follows s ws rs) :
    rs.length ≤ ws.length ∧ ws.length ≤ rs.length + 1 ∧
    ∃ t, serveAll ((ws.take rs.length).map .command) s = .next t ∧
      t.captured = rs ∧ t.codec = p.core.codec ∧ t.dec = p.core.dec := by
  obtain ⟨answered, t, rfl, hlen, hsteps⟩ := hf
  have hone := length_inProgress_le p.phase
  rw [← hlen, List.take_left, List.length_append]
  exact ⟨by omega, by omega, t, hsteps⟩

/-- Settles O57: every cycle keeps the block in step with the machine, with one accepted word at most in progress. -/
theorem portRefinesSteps : Obligations.PortRefinesSteps := fun _ _ hrst hidle =>
  ((Port.follows_start hidle).cycles hrst).answers

/-! ### Commands that repeat (R48) -/

theorem codecAfter_of_readOnly {i : Instr} (h : isReadOnly i = true) (c : Codec) : codecAfter i c = c := by
  cases i with
  | crcGet | frmTail | frmChk | decRd | addrChk => rfl
  | crcInit | crcFeed | decClr | decLoad | decRun => cases h

theorem decAfter_of_readOnly {i : Instr} (h : isReadOnly i = true) (d : Decoder) : decAfter i d = d := by
  cases i with
  | crcGet | frmTail | frmChk | decRd | addrChk => rfl
  | crcInit | crcFeed | decClr | decLoad | decRun => cases h

/-- A read-only command places its response on the response port and does nothing else. -/
theorem exec_of_readOnly {i : Instr} (h : isReadOnly i = true) (s : State) :
    exec i s = .next { s with rsp := some (responseOf i s.codec s.dec) } := by
  rw [exec_eq, codecAfter_of_readOnly h, decAfter_of_readOnly h]

/-- Settles O34: the response comes from the codec and the decoder, which the first time leaves as they were. -/
theorem readOnlyCommandsRepeat : Obligations.ReadOnlyCommandsRepeat := fun _ s h =>
  ⟨_, exec_of_readOnly h s, exec_of_readOnly h _⟩

/-- DECRUN keeps RBN, so the check it makes comes out the same the next time (R83). -/
theorem blockComplete_decRun (d : Decoder) : blockComplete (decAfter .decRun d) = blockComplete d := by
  cases h : blockComplete d with
  | true => rw [decAfter, if_pos h]; exact h
  | false => rw [decAfter, if_neg (by simp [h])]; exact h

/-- And RB, so what it latches is the same too (R78). -/
theorem decAfter_decRun_twice (d : Decoder) : decAfter .decRun (decAfter .decRun d) = decAfter .decRun d := by
  rw [decAfter, blockComplete_decRun]
  cases h : blockComplete d <;> simp [decAfter, h, latchFields, invalidate]

theorem responseOf_decRun_twice (c : Codec) (d : Decoder) :
    responseOf .decRun c (decAfter .decRun d) = responseOf .decRun c d := by
  simp only [responseOf, blockComplete_decRun]

/-- Below its saturation RBN counts a load (R29). -/
theorem bumpRbn_val_of_lt {n : Fin 16} (h : n.val < 15) : (bumpRbn n).val = n.val + 1 := by
  rw [bumpRbn_val]
  omega

/-- Settles O35: what the three commands write does not depend on what they write. -/
theorem idempotentCommands : Obligations.IdempotentCommands := by
  refine ⟨fun i hi s => ⟨_, exec_eq i s, ?_⟩, fun v s h => ⟨_, exec_eq _ s, bumpRbn_val_of_lt h⟩,
    fun b s => ⟨_, exec_eq _ s, rfl, rfl⟩⟩
  rw [exec_eq]
  simp only [List.mem_cons, List.not_mem_nil, or_false] at hi
  obtain rfl | rfl | rfl := hi
  · rfl
  · rfl
  · simp only [decAfter_decRun_twice, responseOf_decRun_twice, codecAfter]

/-! ### The step of a decoded word (R50, R152) -/

/-- An accepted word runs the command that it decodes to. -/
theorem accept_of_decode {w : Word} {i : Instr} (h : decode w = .command i) (s : State) : accept w s = exec i s := by
  rw [accept, h]

/-- A step with a command word at hand accepts it and captures the response. -/
theorem step_command (s : State) (w : Word) (rest : List HostEvent) :
    step { s with pending := .command w :: rest } = captureNext (accept w { s with pending := rest }) := rfl

/-- Settles O22: the step accepts the word, which runs its command, and the host captures the one response. -/
theorem stepPerformsDecodedCommand : Obligations.StepPerformsDecodedCommand := by
  intro s w rest i h
  refine ⟨_, _, exec_eq i _, rfl, rfl, rfl, ?_⟩
  rw [step_command, accept_of_decode h, exec_eq]
  rfl

end Sys2Proof.Machine
end

section
/-! PROOFS. The encoding (30_encoding.md): the words of each command by number (R63, R71), decode and encode as
inverses (R72), decoding by the rows of the opcode map (R65), the legal words by their fields (R64) and their count
(R74), and assembling a disassembly (R69, R71). -/

namespace Sys2Proof

/-! ### The fields of a word as numbers (R56 to R62) -/

@[simp] theorem opcOf_toNat (w : Word) : (opcOf w).toNat = w.toNat / 16777216 := by
  have h := w.isLt
  rw [opcOf, BitVec.extractLsb'_toNat, Nat.shiftRight_eq_div_pow]
  omega

@[simp] theorem selOf_toNat (w : Word) : (selOf w).toNat = w.toNat / 65536 % 256 := by
  rw [selOf, BitVec.extractLsb'_toNat, Nat.shiftRight_eq_div_pow]

@[simp] theorem immOf_toNat (w : Word) : (immOf w).toNat = w.toNat % 65536 := by
  rw [immOf, BitVec.extractLsb'_toNat, Nat.shiftRight_zero]

@[simp] theorem byteOf_toNat (w : Word) : (byteOf w).toNat = w.toNat % 256 := by
  rw [byteOf, BitVec.extractLsb'_toNat, Nat.shiftRight_zero]

/-! ### The number of each command's word (R63, R71) -/

/-- The word of a command as a number: its OPC, with each operand at the place of its field (R57 to R63). -/
def Instr.wordNumber : Instr → Nat
  | .crcInit => 0x01000000
  | .crcFeed b => 0x02000000 + b.toNat
  | .crcGet => 0x03000000
  | .frmTail k => 0x04000000 + 0x10000 * k.number
  | .frmChk => 0x05000000
  | .decClr => 0x10000000
  | .decLoad v => 0x11000000 + v.toNat
  | .decRun => 0x12000000
  | .decRd view field => 0x13000000 + 0x100000 * view.number + 0x10000 * field.number
  | .addrChk a => 0x20000000 + a.toNat

/-- R71's OR is a sum where the operand fits under the lowest bit of the opcode. -/
theorem toNat_or_setWidth {n : Nat} (c : Nat) (x : BitVec n) (hc : 2 ^ n * c < 2 ^ 32) (hn : n ≤ 32) :
    (BitVec.ofNat 32 (2 ^ n * c) ||| x.setWidth 32).toNat = 2 ^ n * c + x.toNat := by
  rw [BitVec.toNat_or, BitVec.toNat_ofNat, Nat.mod_eq_of_lt hc, BitVec.toNat_setWidth_of_le hn,
    Nat.two_pow_add_eq_or_of_lt x.isLt]

theorem encode_toNat (i : Instr) : (encode i).toNat = i.wordNumber := by
  cases i with
  | crcInit | crcGet | frmChk | decClr | decRun => rfl
  | frmTail k => cases k <;> rfl
  | decRd view field => cases view <;> cases field <;> rfl
  | crcFeed b => exact toNat_or_setWidth 0x20000 b (by decide) (by decide)
  | decLoad v => exact toNat_or_setWidth 0x1100 v (by decide) (by decide)
  | addrChk a => exact toNat_or_setWidth 0x2000 a (by decide) (by decide)

/-! ### Decoding by the rows of the opcode map (R65) -/

/-- A word decodes to the command of a row that matches it, and to no other. -/
theorem decode_eq_command_iff (w : Word) (i : Instr) : decode w = .command i ↔
    ∃ r ∈ opcodeMap, w &&& r.mask = r.fixed ∧ r.extra w = true ∧ commandOf r.mnemonic w = some i := by
  constructor
  · intro h
    unfold decode at h
    split at h
    · cases h
    · next r hfind =>
      split_ifs at h with hmatch hextra
      split at h
      · next i' hcmd =>
        cases h
        exact ⟨r, List.mem_of_find?_eq_some hfind, by simpa [Row.matches] using hmatch, hextra, hcmd⟩
      · cases h
  · rintro ⟨r, hr, hmatch, hextra, hcmd⟩
    simp [decode, find_row_of_match hr hmatch, Row.matches, hmatch, hextra, hcmd]

theorem decode_illegal_of_not_command {w : Word} (h : ∀ i, decode w ≠ .command i) :
    ∃ why, decode w = .illegal why := by
  cases hd : decode w with
  | command i => exact absurd hd (h i)
  | illegal why => exact ⟨why, rfl⟩

/-- The rows' OPC values differ, so at most one row matches a word. -/
theorem row_unique_of_match {r r' : Row} (hr : r ∈ opcodeMap) (hr' : r' ∈ opcodeMap) {w : Word}
    (h : w &&& r.mask = r.fixed) (h' : w &&& r'.mask = r'.fixed) : r = r' :=
  opcodeMap_opc_injective r hr r' hr' ((opcOf_of_match hr h).trans (opcOf_of_match hr' h').symm)

/-- A row's extra condition is about FIELD, the four bits above IMM (R62, R63). -/
theorem Row.extra_iff (r : Row) (w : Word) :
    r.extra w = true ↔ (r.mnemonic = .decRd → w.toNat / 65536 % 16 ≤ 5) := by
  have hfield : (w.extractLsb' 16 4).toNat = w.toNat / 65536 % 16 := by
    rw [BitVec.extractLsb'_toNat, Nat.shiftRight_eq_div_pow]
  unfold Row.extra
  cases r.mnemonic <;> simp [hfield]

/-- Settles O17: `decode` finds the row by its OPC, and a row that matches a word has the word's OPC. -/
theorem decodeFollowsOpcodeMap : Obligations.DecodeFollowsOpcodeMap := by
  refine ⟨rfl, fun w => ⟨fun r _ => r.extra_iff w, decode_eq_command_iff w,
    fun r hr r' hr' h h' => row_unique_of_match hr hr' h h', fun h => decode_illegal_of_not_command fun i hi => ?_⟩⟩
  obtain ⟨r, hr, hmatch, hextra, -⟩ := (decode_eq_command_iff w i).1 hi
  exact h r hr ⟨hmatch, hextra⟩

/-! ### Decode and encode are inverse (R72) -/

theorem View.number_of_ofNumber {n : Nat} {v : View} (h : View.ofNumber n = some v) : v.number = n := by
  unfold View.ofNumber at h
  split at h <;> cases h <;> rfl

theorem Field.number_of_ofNumber {n : Nat} {f : Field} (h : Field.ofNumber n = some f) : f.number = n := by
  unfold Field.ofNumber at h
  split at h <;> cases h <;> rfl

/-- Every command's word lies in the row of its mnemonic (R63). -/
theorem rowMatch_encode (i : Instr) : Laws.RowMatch.Statement i := by
  cases i with
  | crcInit => exact Laws.RowMatch.crcInit
  | crcFeed b => exact Laws.RowMatch.crcFeed b
  | crcGet => exact Laws.RowMatch.crcGet
  | frmTail k => exact Laws.RowMatch.frmTail k
  | frmChk => exact Laws.RowMatch.frmChk
  | decClr => exact Laws.RowMatch.decClr
  | decLoad v => exact Laws.RowMatch.decLoad v
  | decRun => exact Laws.RowMatch.decRun
  | decRd view field => exact Laws.RowMatch.decRd view field
  | addrChk a => exact Laws.RowMatch.addrChk a

theorem byteOf_encode_crcFeed (b : Byte) : byteOf (encode (.crcFeed b)) = b := by
  apply BitVec.eq_of_toNat_eq
  rw [byteOf_toNat, encode_toNat, Instr.wordNumber]
  have := b.isLt
  omega

theorem immOf_encode_decLoad (v : Half) : immOf (encode (.decLoad v)) = v := by
  apply BitVec.eq_of_toNat_eq
  rw [immOf_toNat, encode_toNat, Instr.wordNumber]
  have := v.isLt
  omega

theorem immOf_encode_addrChk (a : Half) : immOf (encode (.addrChk a)) = a := by
  apply BitVec.eq_of_toNat_eq
  rw [immOf_toNat, encode_toNat, Instr.wordNumber]
  have := a.isLt
  omega

/-- The operand fields of a command's word hold its operands (R71). -/
theorem commandOf_encode (i : Instr) : commandOf i.mnemonic (encode i) = some i := by
  cases i with
  | crcInit | crcGet | frmChk | decClr | decRun => rfl
  | frmTail k => cases k <;> rfl
  | decRd view field => cases view <;> cases field <;> rfl
  | crcFeed b => rw [Instr.mnemonic, commandOf, byteOf_encode_crcFeed]
  | decLoad v => rw [Instr.mnemonic, commandOf, immOf_encode_decLoad]
  | addrChk a => rw [Instr.mnemonic, commandOf, immOf_encode_addrChk]

/-- FIELD names a field, so it is at most 5: where the operand fields give a command, the extra condition holds. -/
theorem extra_of_commandOf {r : Row} {w : Word} {i : Instr} (h : commandOf r.mnemonic w = some i) :
    r.extra w = true := by
  unfold Row.extra
  cases hm : r.mnemonic with
  | decRd =>
    rw [hm, commandOf] at h
    obtain ⟨v, -, h⟩ := Option.bind_eq_some_iff.1 h
    obtain ⟨f, hf, -⟩ := Option.map_eq_some_iff.1 h
    simpa [Field.number_of_ofNumber hf] using f.number_le
  | crcInit | crcFeed | crcGet | frmTail | frmChk | decClr | decLoad | decRun | addrChk => rfl

@[simp] theorem decode_encode (i : Instr) : decode (encode i) = .command i := by
  obtain ⟨r, hr, hm, hmatch⟩ := rowMatch_encode i
  have hcmd : commandOf r.mnemonic (encode i) = some i := by rw [hm, commandOf_encode]
  exact (decode_eq_command_iff _ i).2 ⟨r, hr, by simpa [Row.matches] using hmatch, extra_of_commandOf hcmd, hcmd⟩

/-- The opcode bits of a mnemonic's words, in place (R63). -/
def opcodeBits : Mnemonic → Word
  | .crcInit => 0x01000000#32
  | .crcFeed => 0x02000000#32
  | .crcGet => 0x03000000#32
  | .frmTail => 0x04000000#32
  | .frmChk => 0x05000000#32
  | .decClr => 0x10000000#32
  | .decLoad => 0x11000000#32
  | .decRun => 0x12000000#32
  | .decRd => 0x13000000#32
  | .addrChk => 0x20000000#32

/-- The bits that an operand field of R57 to R62 covers, the two upper bits of VIEW among them. -/
def operandBits : Mnemonic → Word
  | .crcInit | .crcGet | .frmChk | .decClr | .decRun => 0#32
  | .crcFeed => 0x000000FF#32
  | .frmTail => 0x00010000#32
  | .decLoad | .addrChk => 0x0000FFFF#32
  | .decRd => 0x00FF0000#32

/-- A row fixes the opcode, and every bit that is not fixed belongs to an operand (R63, R64). -/
theorem fixed_and_mask_of_mem : ∀ r ∈ opcodeMap,
    r.fixed = opcodeBits r.mnemonic ∧ r.mask ||| operandBits r.mnemonic = BitVec.allOnes 32 := by decide

/-- A word of a row is the row's opcode with the word's operand bits. -/
theorem opcodeBits_or_operandBits {r : Row} (hr : r ∈ opcodeMap) {w : Word} (h : w &&& r.mask = r.fixed) :
    opcodeBits r.mnemonic ||| (w &&& operandBits r.mnemonic) = w := by
  obtain ⟨hfixed, hmask⟩ := fixed_and_mask_of_mem r hr
  rw [← hfixed, ← h, ← BitVec.and_or_distrib_left, hmask, BitVec.and_allOnes]

/-- A field of a word, put back at its place, is the word's bits there. -/
theorem setWidth_extractLsb'_shiftLeft (w : Word) (s n : Nat) :
    (w.extractLsb' s n).setWidth 32 <<< s = w &&& ((BitVec.allOnes n).setWidth 32 <<< s) := by
  ext k hk
  by_cases h : k < s
  · simp [h]
  · have hs : s + (k - s) = k := by omega
    simp [h, hs, Bool.and_comm, BitVec.getLsbD_eq_getElem hk]

theorem setWidth_extractLsb'_zero (w : Word) (n : Nat) :
    (w.extractLsb' 0 n).setWidth 32 = w &&& (BitVec.allOnes n).setWidth 32 := by
  simpa using setWidth_extractLsb'_shiftLeft w 0 n

theorem code_trailerOf (w : Word) : (trailerOf w).code = w.extractLsb' 16 1 := by
  ext k hk
  obtain rfl : k = 0 := by omega
  cases h : w[16] <;> simp [trailerOf, TrailerByte.code, h]

theorem code_of_viewOf {w : Word} {v : View} (h : viewOf w = some v) : v.code = w.extractLsb' 20 4 := by
  rw [View.code, View.number_of_ofNumber h, BitVec.ofNat_toNat, BitVec.setWidth_eq]

theorem code_of_fieldOf {w : Word} {f : Field} (h : fieldOf w = some f) : f.code = w.extractLsb' 16 4 := by
  rw [Field.code, Field.number_of_ofNumber h, BitVec.ofNat_toNat, BitVec.setWidth_eq]

/-- The command that a word's fields give under a mnemonic encodes to the mnemonic's opcode with the word's operand
bits (R71). -/
theorem encode_of_commandOf {m : Mnemonic} {w : Word} {i : Instr} (h : commandOf m w = some i) :
    encode i = opcodeBits m ||| (w &&& operandBits m) := by
  cases m with
  | crcInit | crcGet | frmChk | decClr | decRun =>
    cases h
    simp [encode, opcodeBits, operandBits]
  | crcFeed =>
    cases h
    rw [encode, byteOf, setWidth_extractLsb'_zero]
    rfl
  | decLoad | addrChk =>
    cases h
    rw [encode, immOf, setWidth_extractLsb'_zero]
    rfl
  | frmTail =>
    cases h
    rw [encode, code_trailerOf, setWidth_extractLsb'_shiftLeft]
    rfl
  | decRd =>
    obtain ⟨v, hv, h⟩ := Option.bind_eq_some_iff.1 h
    obtain ⟨f, hf, rfl⟩ := Option.map_eq_some_iff.1 h
    rw [encode, code_of_viewOf hv, code_of_fieldOf hf, setWidth_extractLsb'_shiftLeft,
      setWidth_extractLsb'_shiftLeft, BitVec.or_assoc, ← BitVec.and_or_distrib_left]
    rfl

theorem encode_of_decode {w : Word} {i : Instr} (h : decode w = .command i) : encode i = w := by
  obtain ⟨r, hr, hmatch, -, hcmd⟩ := (decode_eq_command_iff w i).1 h
  rw [encode_of_commandOf hcmd, opcodeBits_or_operandBits hr hmatch]

/-- Settles O16: an encoded command lies in its own row and its fields give it back, and a word is what its row fixes
together with its operand fields. -/
theorem encodeDecodeInverse : Obligations.EncodeDecodeInverse :=
  ⟨decode_encode, fun _ _ => encode_of_decode⟩

/-- The one word of a command is its encoding (R72). -/
theorem decode_eq_command_iff_encode (w : Word) (i : Instr) : decode w = .command i ↔ encode i = w :=
  ⟨encode_of_decode, fun h => h ▸ decode_encode i⟩

/-- The words of a command, by number (R63). -/
theorem decode_eq_command_iff_toNat (w : Word) (i : Instr) : decode w = .command i ↔ w.toNat = i.wordNumber := by
  rw [decode_eq_command_iff_encode, ← encode_toNat, ← BitVec.toNat_inj, eq_comm]

/-- Settles O58: a word that decodes to a command is the command's encoding, whose number is R63's. -/
theorem wordsOfEachCommand : Obligations.WordsOfEachCommand := by
  intro i w
  have hword := decode_eq_command_iff_toNat w i
  have hencode := encode_toNat i
  cases i with
  | crcInit | crcFeed | crcGet | frmChk | decClr | decLoad | decRun | addrChk => exact ⟨hword, hencode⟩
  | frmTail k => cases k <;> exact ⟨hword, hencode⟩
  | decRd view field => cases view <;> cases field <;> exact ⟨hword, hencode⟩

/-! ### The legal words (R64, R74) -/

theorem legal_iff_decode (w : Word) : legal w = true ↔ ∃ i, decode w = .command i := by
  cases h : decode w <;> simp [legal, Decoded.toOption, h]

theorem encode_injective : Function.Injective encode := fun i j h =>
  Decoded.command.inj (by rw [← decode_encode i, h, decode_encode])

/-- The two trailer indices by their numbers (R61). -/
def TrailerByte.equivFin : TrailerByte ≃ Fin 2 where
  toFun k := ⟨k.number, by have := k.number_le; omega⟩
  invFun := ![.lo, .hi]
  left_inv k := by cases k <;> rfl
  right_inv := by decide

/-- The four views by their numbers (R62). -/
def View.equivFin : View ≃ Fin 4 where
  toFun v := ⟨v.number, by have := v.number_le; omega⟩
  invFun := ![.raw, .int, .frac, .div]
  left_inv v := by cases v <;> rfl
  right_inv := by decide

/-- The six fields by their numbers (R62). -/
def Field.equivFin : Field ≃ Fin 6 where
  toFun f := ⟨f.number, by have := f.number_le; omega⟩
  invFun := ![.volt, .curr, .pow, .energy, .freq, .pf]
  left_inv f := by cases f <;> rfl
  right_inv := by decide

theorem TrailerByte.exists_number_eq {n : Nat} (h : n < 2) : ∃ k : TrailerByte, k.number = n :=
  ⟨TrailerByte.equivFin.symm ⟨n, h⟩, congrArg Fin.val (TrailerByte.equivFin.apply_symm_apply ⟨n, h⟩)⟩

theorem View.exists_number_eq {n : Nat} (h : n < 4) : ∃ v : View, v.number = n :=
  ⟨View.equivFin.symm ⟨n, h⟩, congrArg Fin.val (View.equivFin.apply_symm_apply ⟨n, h⟩)⟩

theorem Field.exists_number_eq {n : Nat} (h : n < 6) : ∃ f : Field, f.number = n :=
  ⟨Field.equivFin.symm ⟨n, h⟩, congrArg Fin.val (Field.equivFin.apply_symm_apply ⟨n, h⟩)⟩

theorem legal_iff_wordNumber (w : Word) : legal w = true ↔ ∃ i : Instr, w.toNat = i.wordNumber := by
  simp only [legal_iff_decode, decode_eq_command_iff_toNat]

/-- Settles O18: the number of a legal word is that of some command, so its fields are the command's opcode and operands
with every other bit 0; and fields like that hold the operands of a command. -/
theorem legalWordsByFields : Obligations.LegalWordsByFields := by
  intro w
  have hw := w.isLt
  have hopc : w.toNat / 16777216 < 256 := by omega
  rw [legal_iff_wordNumber]
  simp only [List.mem_cons, List.not_mem_nil, or_false, ← BitVec.toNat_inj, opcOf_toNat, selOf_toNat, immOf_toNat,
    BitVec.toNat_ofNat]
  constructor
  · rintro ⟨i, hi⟩
    cases i with rw [Instr.wordNumber] at hi
    | crcInit | crcGet | frmChk | decClr | decRun => omega
    | crcFeed x | decLoad x | addrChk x =>
      have := x.isLt
      omega
    | frmTail k =>
      have := k.number_le
      omega
    | decRd view field =>
      have := view.number_le
      have := field.number_le
      omega
  · rintro (⟨h, hs, hi⟩ | ⟨h, hs, hi⟩ | ⟨h, hs, hi⟩ | ⟨h, hs⟩ | ⟨h, hv, hf, hi⟩)
    · rcases h with h | h | h | h | h
      · exact ⟨.crcInit, by rw [Instr.wordNumber]; omega⟩
      · exact ⟨.crcGet, by rw [Instr.wordNumber]; omega⟩
      · exact ⟨.frmChk, by rw [Instr.wordNumber]; omega⟩
      · exact ⟨.decClr, by rw [Instr.wordNumber]; omega⟩
      · exact ⟨.decRun, by rw [Instr.wordNumber]; omega⟩
    · exact ⟨.crcFeed (byteOf w), by rw [Instr.wordNumber, byteOf_toNat]; omega⟩
    · obtain ⟨k, hk⟩ := TrailerByte.exists_number_eq (Nat.lt_succ_of_le hs)
      exact ⟨.frmTail k, by rw [Instr.wordNumber]; omega⟩
    · rcases h with h | h
      · exact ⟨.decLoad (immOf w), by rw [Instr.wordNumber, immOf_toNat]; omega⟩
      · exact ⟨.addrChk (immOf w), by rw [Instr.wordNumber, immOf_toNat]; omega⟩
    · obtain ⟨v, hv'⟩ := View.exists_number_eq (Nat.lt_succ_of_le hv)
      obtain ⟨f, hf'⟩ := Field.exists_number_eq (Nat.lt_succ_of_le hf)
      exact ⟨.decRd v f, by rw [Instr.wordNumber]; omega⟩

/-- A command is one of the five without operands, or the operands of one of the other five (R63). -/
def Instr.equivOperands : Instr ≃ Fin 5 ⊕ Byte ⊕ TrailerByte ⊕ Half ⊕ (View × Field) ⊕ Half where
  toFun
    | .crcInit => .inl 0
    | .crcGet => .inl 1
    | .frmChk => .inl 2
    | .decClr => .inl 3
    | .decRun => .inl 4
    | .crcFeed b => .inr (.inl b)
    | .frmTail k => .inr (.inr (.inl k))
    | .decLoad v => .inr (.inr (.inr (.inl v)))
    | .decRd view field => .inr (.inr (.inr (.inr (.inl (view, field)))))
    | .addrChk a => .inr (.inr (.inr (.inr (.inr a))))
  invFun
    | .inl 0 => .crcInit
    | .inl 1 => .crcGet
    | .inl 2 => .frmChk
    | .inl 3 => .decClr
    | .inl 4 => .decRun
    | .inr (.inl b) => .crcFeed b
    | .inr (.inr (.inl k)) => .frmTail k
    | .inr (.inr (.inr (.inl v))) => .decLoad v
    | .inr (.inr (.inr (.inr (.inl (view, field))))) => .decRd view field
    | .inr (.inr (.inr (.inr (.inr a)))) => .addrChk a
  left_inv i := by cases i <;> rfl
  right_inv
    | .inl n => by fin_cases n <;> rfl
    | .inr (.inl _) => rfl
    | .inr (.inr (.inl _)) => rfl
    | .inr (.inr (.inr (.inl _))) => rfl
    | .inr (.inr (.inr (.inr (.inl _)))) => rfl
    | .inr (.inr (.inr (.inr (.inr _)))) => rfl

theorem card_bitVec (n : Nat) : Nat.card (BitVec n) = 2 ^ n := by
  rw [Nat.card_congr BitVec.equivFin.toEquiv, Nat.card_fin]

/-- R74's sum: 5 + 256 + 2 + 65536 + 4 * 6 + 65536. -/
theorem Instr.card : Nat.card Instr = 131359 := by
  have := Finite.of_equiv _ TrailerByte.equivFin.symm
  have := Finite.of_equiv _ View.equivFin.symm
  have := Finite.of_equiv _ Field.equivFin.symm
  simp only [Nat.card_congr Instr.equivOperands, Nat.card_sum, Nat.card_prod, Nat.card_congr TrailerByte.equivFin,
    Nat.card_congr View.equivFin, Nat.card_congr Field.equivFin, card_bitVec, Nat.card_fin]
  decide

/-- The legal words are the words of the commands (R72). -/
theorem setOf_legal_eq_range_encode : {w : Word | legal w = true} = Set.range encode := by
  ext w
  simp only [Set.mem_ofPred_eq, legal_iff_decode, decode_eq_command_iff_encode, Set.mem_range]

/-- Settles O19: the legal words are the encodings of the commands, one word each, and R74's sum counts the commands. -/
theorem legalWordCount : Obligations.LegalWordCount := by
  rw [Obligations.LegalWordCount, setOf_legal_eq_range_encode, Set.ncard_range_of_injective encode_injective,
    Instr.card]

/-! ### The encoding examples (R73) -/

/-- Settles O20: the decoder runs on each of the eleven words. -/
theorem encodingExamples : Obligations.EncodingExamples := by
  unfold Obligations.EncodingExamples
  decide

namespace Assembler

/-! ### Numbers in an assembly line (R69) -/

theorem digitValue_digit : ∀ d < 10, digitValue (Char.ofNat (48 + d)) = some d := by decide

theorem blank_digit : ∀ d < 10, blank (Char.ofNat (48 + d)) = false := by decide

theorem digit_ne_comma : ∀ d < 10, Char.ofNat (48 + d) ≠ ',' := by decide

theorem digit_ne_x : ∀ d < 10, Char.ofNat (48 + d) ≠ 'x' := by decide

theorem readDigits_digit {d : Nat} (hd : d < 10) : readDigits 10 0 [Char.ofNat (48 + d)] = some d := by
  simp [readDigits, digitValue_digit d hd, hd]

/-- Digits are read from the left, so one more digit at the end shifts the value read and is added to it. -/
theorem readDigits_append_digit (base acc n d : Nat) (cs : List Char) (h : readDigits base acc cs = some n)
    (hd : d < 10) (hb : d < base) :
    readDigits base acc (cs ++ [Char.ofNat (48 + d)]) = some (base * n + d) := by
  induction cs generalizing acc with
  | nil =>
    cases h
    simp [readDigits, digitValue_digit d hd, hb]
  | cons c cs ih =>
    rw [readDigits] at h
    rw [List.cons_append, readDigits]
    cases hc : digitValue c with
    | none => simp [hc] at h
    | some e =>
      by_cases he : e < base
      · simp only [hc, he, if_true] at h ⊢
        exact ih _ h
      · simp [hc, he] at h

/-- `fuel` + 1 digits spell every number below the power of ten they can (R86's decimal text, read by R69). -/
theorem readDigits_decimalDigits (fuel v : Nat) (h : v < 10 ^ (fuel + 1)) :
    readDigits 10 0 (Source.decimalDigits fuel v) = some v := by
  induction fuel generalizing v with
  | zero =>
    have hv : v < 10 := h
    rw [Source.decimalDigits, Nat.mod_eq_of_lt hv, readDigits_digit hv]
  | succ fuel ih =>
    rw [Source.decimalDigits]
    split_ifs with hv
    · exact readDigits_digit hv
    · rw [readDigits_append_digit 10 0 (v / 10) (v % 10) _ (ih _ (by omega)) (by omega) (by omega)]
      rw [Nat.div_add_mod]

/-- What holds of the ten digits holds of every character of a decimal text. -/
theorem forall_mem_decimalDigits {P : Char → Prop} (hP : ∀ d < 10, P (Char.ofNat (48 + d))) (fuel v : Nat) :
    ∀ c ∈ Source.decimalDigits fuel v, P c := by
  induction fuel generalizing v with
  | zero =>
    simp only [Source.decimalDigits, List.mem_singleton, forall_eq]
    exact hP _ (by omega)
  | succ fuel ih =>
    rw [Source.decimalDigits]
    split_ifs with hv
    · simpa using hP v hv
    · simp only [List.mem_append, List.mem_singleton]
      rintro c (hc | rfl)
      · exact ih _ c hc
      · exact hP _ (by omega)

theorem decimalDigits_ne_nil (fuel v : Nat) : Source.decimalDigits fuel v ≠ [] := by
  cases fuel with
  | zero => simp [Source.decimalDigits]
  | succ fuel => rw [Source.decimalDigits]; split_ifs <;> simp

/-- Text without `x` is read in base ten. -/
theorem number_eq_readDigits {t : List Char} (h0 : t ≠ []) (hx : ∀ c ∈ t, c ≠ 'x') :
    number t = readDigits 10 0 t := by
  unfold number
  split
  · exact absurd rfl h0
  · exact absurd rfl (hx 'x' (by simp))
  · exact absurd rfl (hx 'x' (by simp))
  · rfl

theorem number_decimal {v : Nat} (h : v < 10 ^ 10) : number (Source.decimal v) = some v := by
  rw [Source.decimal, number_eq_readDigits (decimalDigits_ne_nil 9 v)
    (forall_mem_decimalDigits digit_ne_x 9 v), readDigits_decimalDigits 9 v h]

/-! ### A line of a mnemonic and one operand (log entry 17) -/

/-- A text that neither starts nor ends with a blank is its own trimmed form. -/
theorem trim_eq_self {t : List Char} (h : ∀ c ∈ t.head?, blank c = false)
    (h' : ∀ c ∈ t.getLast?, blank c = false) : trim t = t := by
  have hfront : t.dropWhile blank = t := by
    cases t with
    | nil => rfl
    | cons c cs => simp [h c rfl]
  have hback : t.reverse.dropWhile blank = t.reverse := by
    rw [← List.head?_reverse] at h'
    cases hr : t.reverse with
    | nil => rfl
    | cons c cs => simp [h' c (by simp [hr])]
  rw [trim, hfront, hback, List.reverse_reverse]

theorem trim_of_no_blank {t : List Char} (h : ∀ c ∈ t, blank c = false) : trim t = t :=
  trim_eq_self (fun c hc => h c (List.mem_of_mem_head? hc)) (fun c hc => h c (List.mem_of_getLast? hc))

theorem trim_blank_cons {b : Char} (hb : blank b = true) (t : List Char) : trim (b :: t) = trim t := by
  simp [trim, hb]

theorem cutCommas_of_no_comma {t : List Char} (h : ∀ c ∈ t, c ≠ ',') : cutCommas t = [t] := by
  induction t with
  | nil => rfl
  | cons c cs ih =>
    simp [cutCommas, h c (by simp), ih fun d hd => h d (by simp [hd])]

/-- A text without blanks and commas is one operand. -/
theorem operandTexts_one {t : List Char} (h0 : t ≠ []) (hb : ∀ c ∈ t, blank c = false)
    (hc : ∀ c ∈ t, c ≠ ',') : operandTexts (' ' :: t) = [t] := by
  have ht : trim (' ' :: t) = t := by rw [trim_blank_cons rfl, trim_of_no_blank hb]
  have hcut : cutCommas (' ' :: t) = [' ' :: t] := cutCommas_of_no_comma (by simpa using hc)
  simp [operandTexts, ht, hcut, h0]

/-- A mnemonic, a blank and one operand assemble to the command that the two name. -/
theorem assemble_one_operand {m t : List Char} {i : Instr} (hm : m ≠ []) (hmb : ∀ c ∈ m, blank c = false)
    (ht : t ≠ []) (htb : ∀ c ∈ t, blank c = false) (htc : ∀ c ∈ t, c ≠ ',')
    (h : command (m.map Char.toLower) [t] = some i) : assemble (m ++ ' ' :: t) = some [i] := by
  have htrim : trim (m ++ ' ' :: t) = m ++ ' ' :: t := by
    refine trim_eq_self (fun c hc => hmb c ?_) (fun c hc => htb c ?_)
    · rw [List.head?_append_of_ne_nil _ hm] at hc
      exact List.mem_of_mem_head? hc
    · rw [List.getLast?_append_cons, List.getLast?_cons_of_ne_nil ht] at hc
      exact List.mem_of_getLast? hc
  have htake : (m ++ ' ' :: t).takeWhile (fun c => !blank c) = m := by
    rw [List.takeWhile_append_of_pos (by simpa using hmb)]
    simp [blank]
  have hdrop : (m ++ ' ' :: t).dropWhile (fun c => !blank c) = ' ' :: t := by
    rw [List.dropWhile_append_of_pos (by simpa using hmb)]
    simp [blank]
  simp [assemble, htrim, htake, hdrop, operandTexts_one ht htb htc, h]

/-- A decimal number is such an operand. -/
theorem assemble_decimal {m : List Char} {i : Instr} {v : Nat} (hm : m ≠ []) (hmb : ∀ c ∈ m, blank c = false)
    (h : command (m.map Char.toLower) [Source.decimal v] = some i) :
    assemble (m ++ ' ' :: Source.decimal v) = some [i] :=
  assemble_one_operand hm hmb (decimalDigits_ne_nil 9 v)
    (forall_mem_decimalDigits blank_digit 9 v) (forall_mem_decimalDigits digit_ne_comma 9 v) h

theorem command_crcFeed (b : Byte) : command "crc.feed".toList [Source.decimal b.toNat] = some (.crcFeed b) := by
  change (number _).bind (fun n => (AsmCmd.crcFeed n).toInstr?) = _
  rw [number_decimal (b.isLt.trans (by decide))]
  exact Instr.toInstr?_toAsm (.crcFeed b)

theorem command_decLoad (v : Half) : command "dec.load".toList [Source.decimal v.toNat] = some (.decLoad v) := by
  change (number _).bind (fun n => (AsmCmd.decLoad n).toInstr?) = _
  rw [number_decimal (v.isLt.trans (by decide))]
  exact Instr.toInstr?_toAsm (.decLoad v)

theorem command_addrChk (a : Half) : command "addr.chk".toList [Source.decimal a.toNat] = some (.addrChk a) := by
  change (number _).bind (fun n => (AsmCmd.addrChk n).toInstr?) = _
  rw [number_decimal (a.isLt.trans (by decide))]
  exact Instr.toInstr?_toAsm (.addrChk a)

/-- Every command's disassembly assembles to the command. -/
theorem assemble_text (i : Instr) : assemble (text i) = some [i] := by
  cases i with
  | crcInit | crcGet | frmChk | decClr | decRun => rfl
  | frmTail k => cases k <;> rfl
  | decRd view field => cases view <;> cases field <;> rfl
  | crcFeed b => exact assemble_decimal (m := "crc.feed".toList) (by simp) (by simp [blank]) (command_crcFeed b)
  | decLoad v => exact assemble_decimal (m := "dec.load".toList) (by simp) (by simp [blank]) (command_decLoad v)
  | addrChk a => exact assemble_decimal (m := "addr.chk".toList) (by simp) (by simp [blank]) (command_addrChk a)

end Assembler

/-- Settles O21: the text of each command is read back, a number digit by digit, and decode and encode are inverse. -/
theorem assembleDisassembly : Obligations.AssembleDisassembly := by
  intro w h
  obtain ⟨i, hi⟩ := (legal_iff_decode w).1 h
  refine ⟨Assembler.text i, by simp [Assembler.disassemble, hi, Decoded.toOption], ?_⟩
  simp [Assembler.assembleWords, Assembler.assemble_text, encode_of_decode hi]

end Sys2Proof
end

section
/-! PROOFS. The register decoder (40_decoder.md): what its commands answer and write (R76, R81 to R85), the exact scaler
(R84), a repeated DECRUN (R87), runs of loads (R88) as the source's decode (R89), and RB[9], which no response or latch
shows (R80). -/

namespace Sys2Proof.Machine

/-! ### One offered command after another -/

theorem afterEvent_offered (i : Instr) (s : State) : afterEvent (offered i) s = { s with
    codec := codecAfter i s.codec
    dec := decAfter i s.dec
    rsp := some (responseOf i s.codec s.dec)
    captured := s.captured ++ [responseOf i s.codec s.dec] } := by
  simp only [offered, afterEvent, codecAfterWord, decAfterWord, responseOfWord, decode_encode]

@[simp] theorem afterEvent_offered_dec (i : Instr) (s : State) :
    (afterEvent (offered i) s).dec = decAfter i s.dec := by
  rw [afterEvent_offered]

@[simp] theorem afterEvent_offered_rsp (i : Instr) (s : State) :
    (afterEvent (offered i) s).rsp = some (responseOf i s.codec s.dec) := by
  rw [afterEvent_offered]

theorem serveAll_cons (e : HostEvent) (es : List HostEvent) (s : State) :
    serveAll (e :: es) s = serveAll es (afterEvent e s) := by
  rw [serveAll_eq, serveAll_eq, List.foldl_cons]

theorem perform_cons (i : Instr) (is : List Instr) (s : State) :
    perform (i :: is) s = perform is (afterEvent (offered i) s) :=
  serveAll_cons (offered i) (is.map offered) s

theorem perform_concat {is : List Instr} {s t : State} (h : perform is s = .next t) (i : Instr) :
    perform (is ++ [i]) s = .next (afterEvent (offered i) t) := by
  rw [perform, List.map_append]
  exact serveAll_concat h (offered i)

/-! ### Runs of loads (R88) -/

/-- DECRUN succeeds exactly after ten loads, and its response says so. -/
theorem Decoder.Reflects.responseOf_decRun {d : Decoder} {h : BlockHistory} (hr : d.Reflects h) (c : Codec) :
    responseOf .decRun c d =
      { err := if h.loads.length = 10 then .ok else .invalidRegisterCount, data := 0#32 } := by
  rw [responseOf]
  by_cases hten : h.loads.length = 10
  · rw [if_pos hten, if_pos (hr.blockComplete_iff.mpr hten), okay]
  · rw [if_neg hten, if_neg (mt hr.blockComplete_iff.mp hten)]

/-- Loads extend the history by their values. -/
theorem blockAfterEvent_loads (h : BlockHistory) (rs : List Half) :
    (rs.map fun v => offered (.decLoad v)).foldl blockAfterEvent h = { h with loads := h.loads ++ rs } := by
  induction rs generalizing h with
  | nil => simp
  | cons v rs ih =>
    have hload : blockAfterEvent h (offered (.decLoad v)) = { h with loads := h.loads ++ [v] } := by
      simp [offered, blockAfterEvent, blockAfterInstr]
    rw [List.map_cons, List.foldl_cons, hload, ih]
    simp

/-- Both starts of a block leave a decoder that reflects the empty history (R81, R145). -/
theorem afterEvent_start_reflects {start : HostEvent} (hstart : start ∈ [offered .decClr, HostEvent.reset])
    (s : State) : (afterEvent start s).dec.Reflects BlockHistory.start := by
  simp only [List.mem_cons, List.not_mem_nil, or_false] at hstart
  obtain rfl | rfl := hstart
  · rw [afterEvent_offered_dec]
    exact Decoder.reflects_start rfl rfl
  · exact Decoder.reflects_start rfl rfl

/-- The history of a block: its registers loaded, and then one DECRUN. -/
def BlockHistory.ofBlock (rs : List Half) : BlockHistory :=
  blockAfterInstr { loads := rs, decoded := none } .decRun

@[simp] theorem BlockHistory.ofBlock_loads (rs : List Half) : (ofBlock rs).loads = rs := rfl

@[simp] theorem BlockHistory.ofBlock_decoded (rs : List Half) :
    (ofBlock rs).decoded = if rs.length = 10 then some rs else none := rfl

/-- From every state, a start, loads and DECRUN leave a decoder that reflects the loads and the DECRUN. -/
theorem serveAll_block {start : HostEvent} (hstart : start ∈ [offered .decClr, HostEvent.reset]) (s : State)
    (rs : List Half) :
    ∃ t, serveAll (start :: rs.map (fun v => offered (.decLoad v)) ++ [offered .decRun]) s = .next t ∧
      t.dec.Reflects (BlockHistory.ofBlock rs) ∧
      t.rsp = some { err := if rs.length = 10 then .ok else .invalidRegisterCount, data := 0#32 } := by
  obtain ⟨t, hrun, hr⟩ := serveAll_keeps (P := fun s h => s.dec.Reflects h) afterEvent_reflects_block
    (rs.map fun v => offered (.decLoad v)) (afterEvent_start_reflects hstart s)
  rw [blockAfterEvent_loads] at hr
  refine ⟨_, serveAll_concat ((serveAll_cons start _ s).trans hrun) (offered .decRun), ?_, ?_⟩
  · rw [afterEvent_offered_dec]
    exact hr.decRun
  · rw [afterEvent_offered_rsp, hr.responseOf_decRun]
    rfl

/-- Settles O37: the decoder reflects the loads, whose number RBN counts and DECRUN checks. -/
theorem loadCountDecidesDecRun : Obligations.LoadCountDecidesDecRun := by
  intro s start rs hstart
  obtain ⟨t, hrun, hr, hrsp⟩ := serveAll_block hstart s rs
  refine ⟨t, hrun, hr.rbn, ?_, hrsp⟩
  rw [hr.dv, BlockHistory.ofBlock_decoded]
  by_cases hten : rs.length = 10 <;> simp [hten]

/-! ### The register pair and the scaler (R76, R84) -/

theorem word32_eq_ofNat (hi lo : Half) : word32 hi lo = BitVec.ofNat 32 (hi.toNat * 65536 + lo.toNat) := by
  rw [← word32_toNat, BitVec.ofNat_toNat, BitVec.setWidth_eq]

/-- The model's register pair is the source's `(high << 16) | low` (R42, R77). -/
theorem word32_toNat_eq_pair (hi lo : Half) : (word32 hi lo).toNat = Source.pair hi lo :=
  BitVec.toNat_append hi lo

/-- The shift by 16 of a zero-extended half loses no bit. -/
theorem word32_eq_shift_or (hi lo : Half) : word32 hi lo = (hi.setWidth 32 <<< 16) ||| lo.setWidth 32 := by
  refine BitVec.eq_of_getLsbD_eq fun k hk => ?_
  rw [word32, BitVec.getLsbD_append]
  by_cases hlow : k < 16
  · simp [hlow, hk]
  · simp [hlow, hk, BitVec.getLsbD_of_ge lo k (Nat.le_of_not_lt hlow)]

/-- Settles O13: no bits of the two halves overlap. -/
theorem word32JoinsHighAndLow : Obligations.Word32JoinsHighAndLow := fun hi lo =>
  ⟨word32_eq_shift_or hi lo, word32_toNat hi lo⟩

/-- A zero-extended register keeps its number (R46). -/
theorem toNat_setWidth_half (x : Half) : (x.setWidth 32 : Word).toNat = x.toNat :=
  BitVec.toNat_setWidth_of_le (by decide)

theorem divisor_toNat (f : Field) : (divisor f).toNat = 10 ^ digits f := by
  cases f <;> rfl

theorem divisor_pos (f : Field) : 0 < (divisor f).toNat := by
  rw [divisor_toNat]
  exact Nat.pow_pos (by decide)

theorem scale_int_toNat (raw d : Word) : (scale raw d .int).toNat = raw.toNat / d.toNat := BitVec.toNat_udiv

theorem scale_frac_toNat (raw d : Word) : (scale raw d .frac).toNat = raw.toNat % d.toNat := BitVec.toNat_umod

/-- Quotient and remainder give the rational back. -/
theorem rat_div_eq_div_add_mod (n : Nat) {d : Nat} (hd : 0 < d) :
    (n : Rat) / d = (n / d : Nat) + ((n % d : Nat) : Rat) / d := by
  have hd' : (d : Rat) ≠ 0 := by exact_mod_cast hd.ne'
  have hn : (n : Rat) = d * (n / d : Nat) + (n % d : Nat) := by exact_mod_cast (Nat.div_add_mod n d).symm
  field_simp
  exact hn

/-- Settles O15: division with remainder by a divisor that is not 0. -/
theorem scalerIsExact : Obligations.ScalerIsExact := by
  intro raw f
  have hd := divisor_pos f
  refine ⟨rfl, rfl, divisor_toNat f, ?_⟩
  rw [scale_int_toNat, scale_frac_toNat]
  exact ⟨(Nat.div_add_mod' _ _).symm, Nat.mod_lt _ hd, rat_div_eq_div_add_mod _ hd⟩

/-! ### DECRD (R85) -/

theorem exec_decRd_of_valid {s : State} (h : s.dec.dv = true) (view : View) (field : Field) :
    exec (.decRd view field) s = .next { s with
      rsp := some { err := .ok, data := scale (s.dec.latches.raw field) (divisor field) view } } := by
  rw [exec_of_readOnly rfl, responseOf, if_pos h]

theorem exec_decRd_of_invalid {s : State} (h : s.dec.dv = false) (view : View) (field : Field) :
    exec (.decRd view field) s = .next { s with rsp := some { err := .notReady, data := 0#32 } } := by
  rw [exec_of_readOnly rfl, responseOf, if_neg (by simp [h])]

/-- Settles O14: the latch and the divisor are those of the field, whichever the view. -/
theorem decRdReadsView : Obligations.DecRdReadsView := by
  intro view field s raw d value
  refine ⟨fun hv => ?_, fun hv => exec_decRd_of_invalid hv view field⟩
  have hraw : (s.dec.latches.raw field).toNat = raw := by
    cases field with
    | volt | freq | pf => exact toNat_setWidth_half _
    | curr | pow | energy => rfl
  have hd : (divisor field).toNat = d := by
    cases field <;> rfl
  have hvalue : scale (s.dec.latches.raw field) (divisor field) view = BitVec.ofNat 32 value := by
    cases view with
    | raw => simp [value, scale, ← hraw]
    | int => rw [scale, BitVec.udiv_def, hraw, hd]
    | frac => rw [scale, BitVec.umod_def, hraw, hd]
    | div => simp [value, scale, ← hd]
  rw [exec_decRd_of_valid hv, hvalue]

/-! ### `dec.block` and the source's decode (R89) -/

theorem source_decode_of_length_ne {regs : List Half} (h : regs.length ≠ 10) : Source.decode regs = none := by
  unfold Source.decode
  split
  · exact absurd rfl h
  · rfl

/-- The source's formulas are the raw fields of the block over the fields' divisors (R77, R78). -/
theorem source_decode_of_length {regs : List Half} (h : regs.length = 10) :
    ∃ m, Source.decode regs = some m ∧
      ∀ f, m.field f = (((rawFields (blockOf regs)).raw f).toNat : Rat) / (divisor f).toNat := by
  match regs, h with
  | [r0, r1, r2, r3, r4, r5, r6, r7, r8, r9], _ =>
    refine ⟨_, rfl, fun f => ?_⟩
    cases f with
    | volt | freq | pf =>
      rw [Latches.raw, toNat_setWidth_half]
      simp [Source.Measurement.field, rawFields, blockOf, divisor]
    | curr | pow | energy =>
      simp [Source.Measurement.field, rawFields, blockOf, Latches.raw, divisor, word32_toNat_eq_pair]

theorem perform_expand_decBlock (regs : List Half) (s : State) : perform (expand (.decBlock regs)) s =
    serveAll (offered .decClr :: regs.map (fun v => offered (.decLoad v)) ++ [offered .decRun]) s := by
  simp [perform, expand, Function.comp_def]

/-- Settles O38: after ten registers the latches are the block's raw fields, and the scaler reads them exactly. -/
theorem decBlockRealisesDecode : Obligations.DecBlockRealisesDecode := by
  intro s regs
  obtain ⟨t, hrun, hr, hrsp⟩ := serveAll_block (start := offered .decClr) (by simp) s regs
  refine ⟨t, (perform_expand_decBlock regs s).trans hrun, fun hne => ?_, fun hten => ?_⟩
  · rw [if_neg hne] at hrsp
    exact ⟨source_decode_of_length_ne hne, hrsp⟩
  · rw [if_pos hten] at hrsp
    have hdecoded : (BlockHistory.ofBlock regs).decoded = some regs := if_pos hten
    have hv : t.dec.dv = true := by rw [hr.dv, hdecoded, Option.isSome_some]
    obtain ⟨m, hm, hfield⟩ := source_decode_of_length hten
    rw [← hr.latches regs hdecoded] at hfield
    refine ⟨hrsp, m, hm, fun f => ⟨_, _, _, exec_decRd_of_valid hv .raw f, exec_decRd_of_valid hv .int f,
      exec_decRd_of_valid hv .frac f, hfield f, ?_⟩⟩
    obtain ⟨-, -, -, -, hlt, hsum⟩ := scalerIsExact (t.dec.latches.raw f) f
    exact ⟨(hfield f).trans hsum, hlt⟩

/-! ### A second DECRUN (R87) -/

/-- The other commands leave the decoder alone: DECRD only reads it. -/
theorem decAfter_of_not_writer {i : Instr} (h : i.mnemonic ∉ [Mnemonic.decClr, .decLoad, .decRun]) (d : Decoder) :
    decAfter i d = d := by
  cases i with
  | decClr | decLoad | decRun => simp [Instr.mnemonic] at h
  | crcInit | crcFeed | crcGet | frmTail | frmChk | decRd | addrChk => rfl

theorem perform_keeps_dec {is : List Instr} (h : ∀ i ∈ is, ∀ d, decAfter i d = d) (s : State) :
    ∃ t, perform is s = .next t ∧ t.dec = s.dec := by
  induction is generalizing s with
  | nil => exact ⟨_, serveAll_eq [] s, rfl⟩
  | cons i is ih =>
    obtain ⟨t, hrun, hdec⟩ := ih (fun j hj => h j (List.mem_cons_of_mem i hj)) (afterEvent (offered i) s)
    refine ⟨t, (perform_cons i is s).trans hrun, hdec.trans ?_⟩
    rw [afterEvent_offered_dec, h i List.mem_cons_self]

theorem decAfter_decRun_rb (d : Decoder) : (decAfter .decRun d).rb = d.rb := by
  cases h : blockComplete d <;> simp [decAfter, h]

theorem decAfter_decRun_rbn (d : Decoder) : (decAfter .decRun d).rbn = d.rbn := by
  cases h : blockComplete d <;> simp [decAfter, h]

/-- Settles O36: the second DECRUN finds the decoder that the first left, and DECRUN is idempotent. -/
theorem repeatedDecRunIsIdempotent : Obligations.RepeatedDecRunIsIdempotent := by
  intro s between h
  obtain ⟨t, hrun, hdec⟩ := perform_keeps_dec (fun i hi => decAfter_of_not_writer (h i hi))
    (afterEvent (offered .decRun) s)
  rw [afterEvent_offered_dec] at hdec
  refine ⟨afterEvent (offered .decRun) s, afterEvent (offered .decRun) t, serveAll_eq [offered .decRun] s,
    perform_concat ((perform_cons .decRun between s).trans hrun) .decRun, ?_, ?_, ?_, ?_⟩
  · rw [afterEvent_offered_dec, afterEvent_offered_dec, hdec, decAfter_decRun_twice]
  · rw [afterEvent_offered_rsp, afterEvent_offered_rsp, hdec, responseOf_decRun_twice,
      responseOf_of_decoderCommand rfl t.codec s.codec]
  · rw [afterEvent_offered_dec, decAfter_decRun_rb]
  · rw [afterEvent_offered_dec, decAfter_decRun_rbn]

/-! ### RB[9] (R80) -/

/-- The decoder with another value in `RB[9]`. -/
def Decoder.withRegister9 (d : Decoder) (v : Half) : Decoder := { d with rb := d.rb.set 9 v }

/-- DECRUN latches registers 0 to 8 only. -/
theorem rawFields_set_9 (rb : Vector Half 10) (v : Half) : rawFields (rb.set 9 v) = rawFields rb := by
  simp [rawFields]

/-- DECLOAD writes a tenth register of its own, or leaves the one that is there. -/
theorem loadRegister_withRegister9 (d : Decoder) (u v : Half) :
    loadRegister (d.withRegister9 v) u =
      (loadRegister d u).withRegister9 (if d.rbn.val = 9 then u else v) := by
  have hrb : (loadRegister (d.withRegister9 v) u).rb =
      (loadRegister d u).rb.set 9 (if d.rbn.val = 9 then u else v) := by
    ext i hi
    rw [loadRegister_rb, Vector.getElem_set, loadRegister_rb]
    by_cases hnine : 9 = i
    · subst hnine
      simp [Decoder.withRegister9, eq_comm]
    · simp [Decoder.withRegister9, hnine]
  exact congrArg (fun rb => { loadRegister d u with rb := rb }) hrb

/-- DECRUN neither checks nor latches `RB[9]`. -/
theorem decAfter_decRun_withRegister9 (d : Decoder) (v : Half) :
    decAfter .decRun (d.withRegister9 v) = (decAfter .decRun d).withRegister9 v := by
  have hcheck : blockComplete (d.withRegister9 v) = blockComplete d := rfl
  simp only [decAfter, hcheck]
  cases blockComplete d with
  | true => exact congrArg (fun l => { d.withRegister9 v with latches := l, dv := true }) (rawFields_set_9 d.rb v)
  | false => rfl

/-- Two decoders that differ in `RB[9]` at most differ there at most after every command. -/
theorem decAfter_withRegister9 (i : Instr) (d : Decoder) (v : Half) :
    ∃ w, decAfter i (d.withRegister9 v) = (decAfter i d).withRegister9 w := by
  cases i with
  | decLoad u => exact ⟨_, loadRegister_withRegister9 d u v⟩
  | decRun => exact ⟨v, decAfter_decRun_withRegister9 d v⟩
  | crcInit | crcFeed | crcGet | frmTail | frmChk | decClr | decRd | addrChk => exact ⟨v, rfl⟩

theorem decAfterWord_withRegister9 (w : Word) (d : Decoder) (v : Half) :
    ∃ v', decAfterWord w (d.withRegister9 v) = (decAfterWord w d).withRegister9 v' := by
  unfold decAfterWord
  cases decode w with
  | command i => exact decAfter_withRegister9 i d v
  | illegal why => exact ⟨v, rfl⟩

/-- No response reads `RB`. -/
theorem responseOf_withRegister9 (i : Instr) (c : Codec) (d : Decoder) (v : Half) :
    responseOf i c (d.withRegister9 v) = responseOf i c d := by
  cases i <;> rfl

theorem responseOfWord_withRegister9 (w : Word) (c : Codec) (d : Decoder) (v : Half) :
    responseOfWord w c (d.withRegister9 v) = responseOfWord w c d := by
  unfold responseOfWord
  cases decode w with
  | command i => exact responseOf_withRegister9 i c d v
  | illegal why => rfl

theorem withRegister9_dec (s : State) (v : Half) : (s.withRegister9 v).dec = s.dec.withRegister9 v := rfl

/-- Reset writes its own value to `RB[9]` (log entry 4). -/
theorem doReset_withRegister9 (s : State) (v : Half) :
    (s.withRegister9 v).doReset = s.doReset.withRegister9 0#16 := rfl

/-- Two states that differ in `RB[9]` at most differ there at most after every event. -/
theorem afterEvent_withRegister9 (e : HostEvent) (s : State) (v : Half) :
    ∃ v', afterEvent e (s.withRegister9 v) = (afterEvent e s).withRegister9 v' := by
  cases e with
  | command w | missed w =>
    obtain ⟨v', hv'⟩ := decAfterWord_withRegister9 w s.dec v
    refine ⟨v', ?_⟩
    simp only [afterEvent, withRegister9_dec, responseOfWord_withRegister9, hv']
    rfl
  | reset | abandoned w => exact ⟨0#16, doReset_withRegister9 s v⟩

/-- Settles O52: the two runs differ in `RB[9]` at most, and so in no response and no latch. -/
theorem register9IsNeverVisible : Obligations.Register9IsNeverVisible := by
  intro s v es
  obtain ⟨u, hu, v', rfl⟩ := serveAll_keeps (P := fun u t => ∃ v', u = State.withRegister9 t v')
    (next := fun t e => afterEvent e t)
    (fun e _ t ⟨v', h⟩ => h ▸ afterEvent_withRegister9 e t v') es ⟨v, rfl⟩
  exact ⟨_, _, serveAll_eq es s, hu, rfl, rfl, rfl⟩

/-! ### DECCLR, DECLOAD and DECRUN (R81, R82, R83) -/

/-- Settles O10: DECCLR is `clearBlock` with the response (OK, 0). -/
theorem decClrEmptiesBlock : Obligations.DecClrEmptiesBlock := exec_eq .decClr

/-- Settles O11: DECLOAD is `loadRegister` with the response (OK, 0). -/
theorem decLoadAppendsRegister : Obligations.DecLoadAppendsRegister := by
  intro v s
  refine ⟨(loadRegister s.dec v).rb, (loadRegister s.dec v).rbn, exec_eq (.decLoad v) s,
    loadRegister_rb s.dec v, ?_⟩
  rw [loadRegister_rbn, bumpRbn_val]
  split_ifs <;> omega

/-- Settles O12: the check of RBN decides between `latchFields` and `invalidate`. -/
theorem decRunDecodesBlock : Obligations.DecRunDecodesBlock := by
  intro s
  have hcheck : blockComplete s.dec = true ↔ s.dec.rbn = 10 := by
    rw [blockComplete_iff, Fin.ext_iff]
    rfl
  refine ⟨fun hten => ?_, fun hne => ?_⟩
  · rw [exec_eq, decAfter, responseOf, if_pos (hcheck.mpr hten), if_pos (hcheck.mpr hten), latchFields, rawFields]
    simp only [word32_eq_ofNat]
    rfl
  · rw [exec_eq, decAfter, responseOf, if_neg (mt hcheck.mp hne), if_neg (mt hcheck.mp hne)]
    rfl

end Sys2Proof.Machine
end

section
/-! PROOFS. The frame codec (41_frame_codec.md): the CRC step as a linear bijection (R100, R117), what each command does
(R103 to R108, R119), the bytes fed as an invariant of a run (R109), coherence (R25), and the command sequences as the
source's functions (R113 to R118). -/

namespace Sys2Proof.Machine

/-! ### The CRC step (R100, R117) -/

/-- Both branches of a shift step shift right; the low bit only chooses what is XORed in. -/
theorem shiftStep_eq_xor (c : Half) :
    shiftStep c = (c >>> 1) ^^^ (if c.getLsbD 0 then Config.crcPoly else 0#16) := by
  unfold shiftStep
  split <;> simp

theorem shiftStep_xor (x y : Half) : shiftStep (x ^^^ y) = shiftStep x ^^^ shiftStep y := by
  have hmask : (if (x ^^^ y).getLsbD 0 then Config.crcPoly else 0#16) =
      (if x.getLsbD 0 then Config.crcPoly else 0#16) ^^^ (if y.getLsbD 0 then Config.crcPoly else 0#16) := by
    rw [BitVec.getLsbD_xor]
    cases x.getLsbD 0 <;> cases y.getLsbD 0 <;> rfl
  rw [shiftStep_eq_xor, shiftStep_eq_xor, shiftStep_eq_xor, hmask, BitVec.ushiftRight_xor_distrib]
  ac_rfl

/-- An even value is shifted alone. -/
theorem shiftStep_of_even {c : Half} (h : c.getLsbD 0 = false) : shiftStep c = c >>> 1 := by
  rw [shiftStep, h, if_neg Bool.false_ne_true]

/-- The top bit of a shift step tells which branch it took: the polynomial has it set and a shifted value has not. -/
theorem shiftStep_getLsbD_15 (c : Half) : (shiftStep c).getLsbD 15 = c.getLsbD 0 := by
  rw [shiftStep_eq_xor]
  cases c.getLsbD 0 <;> simp [Config.crcPoly]

/-- Only 0 steps to 0. -/
theorem eq_zero_of_shiftStep_eq_zero {c : Half} (h : shiftStep c = 0#16) : c = 0#16 := by
  have heven : c.getLsbD 0 = false := by rw [← shiftStep_getLsbD_15, h, BitVec.getLsbD_zero]
  rw [shiftStep_of_even heven] at h
  refine BitVec.eq_of_getLsbD_eq fun i hi => ?_
  cases i with
  | zero => rw [heven, BitVec.getLsbD_zero]
  | succ i => simpa [Nat.add_comm] using congrArg (BitVec.getLsbD · i) h

theorem shiftStep_injective : Function.Injective shiftStep := by
  intro x y h
  rw [← BitVec.xor_eq_zero_iff] at h ⊢
  exact eq_zero_of_shiftStep_eq_zero ((shiftStep_xor x y).trans h)

theorem shiftSteps_xor (n : Nat) (x y : Half) : shiftSteps n (x ^^^ y) = shiftSteps n x ^^^ shiftSteps n y := by
  induction n generalizing x y with
  | zero => rfl
  | succ n ih => rw [shiftSteps_succ, shiftStep_xor, ih, shiftSteps_succ, shiftSteps_succ]

theorem shiftSteps_injective (n : Nat) : Function.Injective (shiftSteps n) := by
  induction n with
  | zero => exact Function.injective_id
  | succ n ih => exact ih.comp shiftStep_injective

/-- As long as the low bits are 0, the steps only shift. -/
theorem shiftSteps_of_low_zero {n : Nat} {c : Half} (h : ∀ i < n, c.getLsbD i = false) : shiftSteps n c = c >>> n := by
  induction n generalizing c with
  | zero => simp
  | succ n ih =>
    rw [shiftSteps_succ, shiftStep_of_even (h 0 (Nat.succ_pos n)), ih, ← BitVec.shiftRight_add, Nat.add_comm]
    intro i hi
    rw [BitVec.getLsbD_ushiftRight, Nat.add_comm]
    exact h (i + 1) (Nat.succ_lt_succ hi)

theorem crcByte_xor (c c' : Half) (b b' : Byte) : crcByte (c ^^^ c') (b ^^^ b') = crcByte c b ^^^ crcByte c' b' := by
  rw [crcByte, crcByte, crcByte, ← shiftSteps_xor, BitVec.setWidth_xor]
  congr 1
  ac_rfl

theorem crcByte_left_injective (b : Byte) : Function.Injective (crcByte · b) := fun _ _ h =>
  (BitVec.xor_left_inj _).mp (shiftSteps_injective 8 h)

theorem crcByte_right_injective (c : Half) : Function.Injective (crcByte c) := by
  intro b b' h
  have hwide : b.setWidth 16 = b'.setWidth 16 := (BitVec.xor_right_inj _).mp (shiftSteps_injective 8 h)
  simpa using congrArg (BitVec.setWidth 8) hwide

/-- Settles O45: XOR passes through every shift step, and no shift step merges two values. -/
theorem crcByteIsLinearAndInjective : Obligations.CrcByteIsLinearAndInjective :=
  ⟨crcByte_xor, fun _ _ b h => crcByte_left_injective b h⟩

theorem crcFold_injective (l : List Byte) : Function.Injective (crcFold · l) := by
  induction l with
  | nil => exact Function.injective_id
  | cons b l ih => exact ih.comp (crcByte_left_injective b)

theorem crcFold_concat (c : Half) (l : List Byte) (b : Byte) : crcFold c (l ++ [b]) = crcByte (crcFold c l) b := by
  rw [crcFold_append, crcFold_cons, crcFold_nil]

@[simp] theorem crc16_nil : crc16 [] = Config.crcInit := rfl

@[simp] theorem crc16_concat (l : List Byte) (b : Byte) : crc16 (l ++ [b]) = crcByte (crc16 l) b :=
  crcFold_concat Config.crcInit l b

/-- The shift step with its test of the low bit as a remainder (R100). -/
theorem shiftStep_eq_ite_mod (c : Half) :
    shiftStep c = if c.toNat % 2 = 1 then (c >>> 1) ^^^ 0xA001#16 else c >>> 1 := by
  have hbit : c.getLsbD 0 = true ↔ c.toNat % 2 = 1 := by simp [BitVec.getLsbD]
  simp only [shiftStep, hbit]

/-- A fold that does not look at the list's elements takes one shift step for each. -/
theorem foldl_shiftStep (l : List Nat) (c : Half) : l.foldl (fun x _ => shiftStep x) c = shiftSteps l.length c := by
  induction l generalizing c with
  | nil => rfl
  | cons _ l ih => exact ih (shiftStep c)

/-- Settles O3: the fold over eight elements takes eight shift steps. -/
theorem crcByteIsEightShiftSteps : Obligations.CrcByteIsEightShiftSteps := by
  intro c b
  simp only [← shiftStep_eq_ite_mod, foldl_shiftStep, List.length_range, BitVec.ofNat_toNat, crcByte]

/-- Settles O4: a fold takes the last byte last. -/
theorem crcOfSequenceIsFold : Obligations.CrcOfSequenceIsFold := ⟨crc16_nil, crc16_concat⟩

/-! ### The residue of a trailer (R118) -/

/-- A zero-extended byte is a trailer whose second byte is 0. -/
theorem setWidth_eq_trailerValue (b : Byte) : b.setWidth 16 = trailerValue b 0#8 :=
  BitVec.setWidth_eq_append (by decide)

theorem trailerValue_xor (a b a' b' : Byte) :
    trailerValue a b ^^^ trailerValue a' b' = trailerValue (a ^^^ a') (b ^^^ b') := BitVec.xor_append

/-- The first trailer byte cancels the low byte of the CRC that it came from, and the steps shift the high byte down. -/
theorem crcByte_trailerValue (lo hi : Byte) : crcByte (trailerValue lo hi) lo = hi.setWidth 16 := by
  have hlow : ∀ i < 8, (trailerValue 0#8 hi).getLsbD i = false := fun i h => by
    rw [trailerValue, BitVec.getLsbD_append, if_pos h, BitVec.getLsbD_zero]
  rw [crcByte, setWidth_eq_trailerValue, trailerValue_xor, BitVec.xor_self, BitVec.xor_zero,
    shiftSteps_of_low_zero hlow]
  apply BitVec.eq_of_toNat_eq
  rw [BitVec.toNat_ushiftRight, trailerValue_toNat, BitVec.toNat_setWidth, Nat.shiftRight_eq_div_pow]
  have hlt := hi.isLt
  simp only [BitVec.toNat_ofNat]
  omega

/-- The second trailer byte cancels what is left. -/
theorem crcByte_self (b : Byte) : crcByte (b.setWidth 16) b = 0#16 := by
  rw [crcByte, BitVec.xor_self, shiftSteps_of_low_zero (by simp), BitVec.zero_ushiftRight]

/-- Two bytes bring a CRC to 0 exactly when they are its trailer: its own trailer does, and no other CRC goes to 0 with
the same bytes. -/
theorem crcByte_crcByte_eq_zero_iff (c : Half) (lo hi : Byte) :
    crcByte (crcByte c lo) hi = 0#16 ↔ c = trailerValue lo hi := by
  have htrailer : crcByte (crcByte (trailerValue lo hi) lo) hi = 0#16 := by
    rw [crcByte_trailerValue, crcByte_self]
  refine ⟨fun h => ?_, fun h => h ▸ htrailer⟩
  exact crcByte_left_injective lo (crcByte_left_injective hi (h.trans htrailer.symm))

/-! ### The commands of the frame codec (R103 to R108, R119) -/

@[simp] theorem feedByte_crc (c : Codec) (b : Byte) : (feedByte c b).crc = crcByte c.crc b := rfl
@[simp] theorem feedByte_h1 (c : Codec) (b : Byte) : (feedByte c b).h1 = c.crc := rfl
@[simp] theorem feedByte_h2 (c : Codec) (b : Byte) : (feedByte c b).h2 = c.h1 := rfl
@[simp] theorem feedByte_t0 (c : Codec) (b : Byte) : (feedByte c b).t0 = c.t1 := rfl
@[simp] theorem feedByte_t1 (c : Codec) (b : Byte) : (feedByte c b).t1 = b := rfl
@[simp] theorem feedByte_fill (c : Codec) (b : Byte) : (feedByte c b).fill = bumpFill c.fill := rfl

/-- Settles O1: CRCINIT is `codecStart` with the response (OK, 0). -/
theorem crcInitStartsComputation : Obligations.CrcInitStartsComputation := exec_eq .crcInit

/-- Settles O2: CRCFEED is `feedByte` with the response (OK, 0). -/
theorem crcFeedShiftsHistory : Obligations.CrcFeedShiftsHistory := by
  intro b s
  refine ⟨feedByte s.codec b, exec_eq (.crcFeed b) s, rfl, rfl, rfl, rfl, rfl, ?_⟩
  rw [feedByte_fill, bumpFill_val]
  split_ifs <;> omega

/-- Settles O5: CRCGET is read-only, and a zero-extended CRC keeps its number. -/
theorem crcGetAnswersRunningCrc : Obligations.CrcGetAnswersRunningCrc := fun s => by
  rw [BitVec.ofNat_toNat]
  exact exec_of_readOnly rfl s

theorem crcLow_toNat (c : Half) : (crcLow c).toNat = c.toNat % 256 := by
  rw [crcLow, BitVec.extractLsb'_toNat, Nat.shiftRight_zero]

theorem crcHigh_toNat (c : Half) : (crcHigh c).toNat = c.toNat / 256 % 256 := by
  rw [crcHigh, BitVec.extractLsb'_toNat, Nat.shiftRight_eq_div_pow]

/-- Settles O6: FRMTAIL is read-only, and its two bytes are those of the CRC. -/
theorem frmTailAnswersTrailerByte : Obligations.FrmTailAnswersTrailerByte := by
  intro s
  rw [← crcLow_toNat, ← crcHigh_toNat, BitVec.ofNat_toNat, BitVec.ofNat_toNat]
  exact ⟨exec_of_readOnly rfl s, exec_of_readOnly rfl s⟩

/-- The response that FRMCHK gives a verdict (R107). -/
def FrameVerdict.response (v : FrameVerdict) : Response := ⟨v.err, v.data⟩

theorem exec_frmChk (s : State) :
    exec .frmChk s = .next { s with rsp := some (frameVerdict s.codec).response } := exec_of_readOnly rfl s

theorem frameVerdict_of_short {c : Codec} (h : c.fill < 2) : frameVerdict c = .short := if_pos h

/-- With two bytes fed, FRMCHK compares H2 with them read little-endian. -/
theorem frameVerdict_of_not_short {c : Codec} (h : ¬ c.fill < 2) :
    frameVerdict c = if c.h2 = trailerValue c.t0 c.t1 then .valid else .mismatch := if_neg h

theorem eq_trailerValue_iff (c : Half) (lo hi : Byte) :
    c = trailerValue lo hi ↔ c.toNat = lo.toNat + 256 * hi.toNat := by
  rw [BitVec.toNat_eq, trailerValue_toNat]

/-- Settles O7: FRMCHK is read-only, and H2 is compared with the last two bytes as one number. -/
theorem frmChkValidatesFedBytes : Obligations.FrmChkValidatesFedBytes := by
  intro s
  rw [exec_frmChk]
  by_cases hshort : s.codec.fill.val < 2
  · rw [frameVerdict_of_short hshort, if_pos hshort]
    rfl
  · rw [frameVerdict_of_not_short hshort, if_neg hshort]
    simp only [eq_trailerValue_iff]
    split <;> rfl

theorem addressInRange_iff (a : Half) : addressInRange a = true ↔ 1 ≤ a.toNat ∧ a.toNat ≤ 247 := by
  simp [addressInRange]

/-- Settles O8: ADDRCHK is read-only, and answers by the range. -/
theorem addrChkChecksRange : Obligations.AddrChkChecksRange := by
  intro a s
  simp only [exec_of_readOnly (i := .addrChk a) rfl, responseOf, addressInRange_iff]

/-- The accepted operands are those whose number lies in the range: a rejected one is answered with an error. -/
theorem addrChk_accepts_iff (a : Half) :
    (∀ s, exec (.addrChk a) s = .next { s with rsp := some { err := .ok, data := 1#32 } }) ↔
      a.toNat ∈ Set.Icc 1 247 := by
  rw [Set.mem_Icc]
  refine ⟨fun h => ?_, fun h s => by rw [addrChkChecksRange, if_pos h]⟩
  by_contra hout
  have hs := h State.reset
  rw [addrChkChecksRange, if_neg hout] at hs
  cases hs

/-- Settles O9: `BitVec.toNat` takes the accepted operands one to one to the numbers 1 to 247. -/
theorem addrChkAcceptsExactly247 : Obligations.AddrChkAcceptsExactly247 := by
  refine ⟨?_, fun a s h => ?_⟩
  · have hrange : Set.Icc 1 247 ⊆ Set.range (BitVec.toNat : Half → Nat) := fun n hn =>
      ⟨BitVec.ofNat 16 n, Nat.mod_eq_of_lt (lt_of_le_of_lt hn.2 (by decide))⟩
    simp only [addrChk_accepts_iff]
    calc Set.ncard (BitVec.toNat ⁻¹' Set.Icc 1 247 : Set Half)
        = Set.ncard (Set.Icc 1 247) :=
          Set.ncard_preimage_of_injective_subset_range BitVec.toNat_injective hrange
      _ = 247 := by simp [Set.ncard_eq_toFinset_card']
  · have hout : ¬ (1 ≤ a.toNat ∧ a.toNat ≤ 247) := by
      rcases h with rfl | h
      · decide
      · omega
    rw [addrChkChecksRange, if_neg hout]

/-! ### Coherence (R25, R118) -/

theorem bumpFill_ne_zero (f : Fin 3) : bumpFill f ≠ 0 := by
  revert f; decide

/-- Only the first byte counts to 1. -/
theorem eq_zero_of_bumpFill_eq_one {f : Fin 3} (h : bumpFill f = 1) : f = 0 := by
  revert f; decide

/-- From the first byte fed on, CRC is the step of H1 by T1. -/
theorem Codec.Coherent.crc_eq {c : Codec} (h : c.Coherent) (hf : c.fill ≠ 0) : c.crc = crcByte c.h1 c.t1 := by
  obtain ⟨-, hone, htwo⟩ := h
  obtain h1 | h2 : c.fill = 1 ∨ c.fill = 2 := by omega
  · exact (hone h1).1
  · exact (htwo h2).1

/-- One more byte: CRC is stepped by it, and the step before becomes that of H1. -/
theorem Codec.Coherent.feedByte {c : Codec} (h : c.Coherent) (b : Byte) : (feedByte c b).Coherent := by
  refine ⟨fun hf => absurd hf (bumpFill_ne_zero c.fill), fun hf => ⟨rfl, ?_⟩, fun hf => ⟨rfl, ?_⟩⟩
  · obtain ⟨hcrc, hh1, -⟩ := h.1 (eq_zero_of_bumpFill_eq_one hf)
    exact ⟨hcrc, hh1⟩
  · exact h.crc_eq (fill_ne_zero_of_bumpFill_eq_two hf)

/-- Every command keeps the codec coherent. -/
theorem Codec.Coherent.codecAfter {c : Codec} (h : c.Coherent) (i : Instr) : (codecAfter i c).Coherent := by
  cases i with
  | crcInit => exact Codec.coherent_of_fill_zero rfl ⟨rfl, rfl, rfl⟩
  | crcFeed b => exact h.feedByte b
  | crcGet | frmTail | frmChk | decClr | decLoad | decRun | decRd | addrChk => exact h

theorem Codec.Coherent.codecAfterWord {c : Codec} (h : c.Coherent) (w : Word) : (codecAfterWord w c).Coherent := by
  unfold Machine.codecAfterWord
  cases decode w with
  | command i => exact h.codecAfter i
  | illegal why => exact h

theorem Codec.Coherent.afterEvent {s : State} (h : s.codec.Coherent) (e : HostEvent) :
    (afterEvent e s).codec.Coherent := by
  cases e with
  | command w | missed w => exact h.codecAfterWord w
  | reset | abandoned w => exact resetCodecIsCoherent

/-- Settles O48: a step serves an event, or leaves the codec as it is. -/
theorem stepKeepsCodecCoherent : Obligations.StepKeepsCodecCoherent := by
  intro s t h hstep
  cases hp : s.pending with
  | nil =>
    rw [step_nil hp] at hstep
    cases hstep
    exact h
  | cons e rest =>
    rw [step_cons hp] at hstep
    cases hstep
    exact Codec.Coherent.afterEvent (s := { s with pending := rest }) h e

/-- In a coherent codec the CRC is 0 exactly when H2 is the trailer that the last two bytes are. -/
theorem Codec.Coherent.frameVerdict_eq {c : Codec} (h : c.Coherent) : frameVerdict c = residueVerdict c := by
  unfold residueVerdict
  by_cases hshort : c.fill < 2
  · rw [if_pos hshort, frameVerdict_of_short hshort]
  · obtain ⟨-, -, htwo⟩ := h
    obtain ⟨hcrc, hh1⟩ := htwo (by omega)
    rw [if_neg hshort, frameVerdict_of_not_short hshort]
    simp only [hcrc, hh1, crcByte_crcByte_eq_zero_iff]

/-! ### The history of the frame codec (R109) -/

theorem codecStart_reflects : codecStart.Reflects [] where
  crc := rfl
  fill := rfl
  h1 := rfl
  h2 := rfl
  t1 := nofun
  t0 := nofun

/-- One more byte: each element of the history moves one place on. -/
theorem Codec.Reflects.feedByte {c : Codec} {l : List Byte} (h : c.Reflects l) (b : Byte) :
    (feedByte c b).Reflects (l ++ [b]) where
  crc := by rw [feedByte_crc, h.crc, crc16_concat]
  fill := by
    rw [feedByte_fill, bumpFill_val, h.fill, List.length_append, List.length_singleton]
    omega
  h1 := by simp [h.crc]
  h2 := by
    have hlen : (l ++ [b]).length - 2 = l.length - 1 := by simp
    rw [feedByte_h2, h.h1, hlen, List.take_append_of_le_length (Nat.sub_le _ _)]
  t1 _ := by simp
  t0 htwo := by
    have hone : 1 ≤ l.length := by simpa using htwo
    have hlen : (l ++ [b]).length - 2 = l.length - 1 := by simp
    rw [feedByte_t0, hlen, List.getElem?_append_left (Nat.sub_one_lt_of_lt hone), h.t1 hone]

theorem Codec.Reflects.codecAfter {c : Codec} {l : List Byte} (h : c.Reflects l) (i : Instr) :
    (codecAfter i c).Reflects (fedAfterInstr l i) := by
  cases i with
  | crcInit => exact codecStart_reflects
  | crcFeed b => exact h.feedByte b
  | crcGet | frmTail | frmChk | decClr | decLoad | decRun | decRd | addrChk => exact h

theorem Codec.Reflects.codecAfterWord {c : Codec} {l : List Byte} (h : c.Reflects l) (w : Word) :
    (codecAfterWord w c).Reflects (fedAfterEvent l (.command w)) := by
  simp only [Machine.codecAfterWord, fedAfterEvent]
  cases decode w with
  | command i => exact h.codecAfter i
  | illegal why => exact h

/-- Every host event takes the codec along with its history; a reset starts both again. -/
theorem afterEvent_reflects_fed (e : HostEvent) (s : State) (l : List Byte) (h : s.codec.Reflects l) :
    (afterEvent e s).codec.Reflects (fedAfterEvent l e) := by
  cases e with
  | command w | missed w => exact h.codecAfterWord w
  | reset | abandoned w => exact codecStart_reflects

/-- Settles O46: every host event keeps the relation between the codec and the bytes fed. -/
theorem codecReflectsFedBytes : Obligations.CodecReflectsFedBytes :=
  ⟨codecStart_reflects, fun s => ⟨_, exec_eq .crcInit s, codecStart_reflects⟩, fun es _ _ h =>
    serveAll_keeps (P := fun s l => s.codec.Reflects l) afterEvent_reflects_fed es h⟩

/-! ### The command sequences (R113 to R115) -/

@[simp] theorem afterEvent_offered_codec (i : Instr) (s : State) :
    (afterEvent (offered i) s).codec = codecAfter i s.codec := by
  rw [afterEvent_offered]

@[simp] theorem afterEvent_offered_captured (i : Instr) (s : State) :
    (afterEvent (offered i) s).captured = s.captured ++ [responseOf i s.codec s.dec] := by
  rw [afterEvent_offered]

/-- CRCINIT and one CRCFEED per byte, from every state: the codec reflects the bytes, and every response is (OK, 0). -/
theorem perform_crcInit_feeds (s : State) (l : List Byte) :
    ∃ t, perform (.crcInit :: l.map .crcFeed) s = .next t ∧ t.codec.Reflects l ∧
      t.captured = s.captured ++ List.replicate (l.length + 1) okay := by
  induction l using List.reverseRecOn with
  | nil =>
    refine ⟨_, serveAll_eq [offered .crcInit] s, ?_, afterEvent_offered_captured .crcInit s⟩
    exact codecStart_reflects
  | append_singleton l b ih =>
    obtain ⟨t, hrun, hr, hcap⟩ := ih
    refine ⟨afterEvent (offered (.crcFeed b)) t, ?_, ?_, ?_⟩
    · rw [List.map_append, ← List.cons_append]
      exact perform_concat hrun (.crcFeed b)
    · rw [afterEvent_offered_codec]
      exact hr.feedByte b
    · rw [afterEvent_offered_captured, hcap, List.append_assoc, List.length_append, List.length_singleton,
        List.replicate_succ' (n := l.length + 1)]
      rfl

/-- Settles O39: CRCGET answers the CRC of a codec that reflects the bytes. -/
theorem crcComputeRealisesCrc16 : Obligations.CrcComputeRealisesCrc16 := by
  intro s l
  obtain ⟨t, hrun, hr, hcap⟩ := perform_crcInit_feeds s l
  refine ⟨_, perform_concat hrun .crcGet, ?_⟩
  rw [afterEvent_offered_captured, hcap, responseOf, hr.crc]

/-- Settles O40: the two FRMTAILs answer the two bytes of the CRC of a codec that reflects the payload. -/
theorem frmBuildRealisesBuildFrame : Obligations.FrmBuildRealisesBuildFrame := by
  intro s p
  obtain ⟨t, hrun, hr, hcap⟩ := perform_crcInit_feeds s p
  have hlast := perform_concat (perform_concat hrun (.frmTail .lo)) (.frmTail .hi)
  rw [List.append_assoc] at hlast
  refine ⟨_, crcLow (crc16 p), crcHigh (crc16 p), hlast, ?_, crcLow_toNat _, ?_, rfl, ?_⟩
  · simp [hcap, responseOf, codecAfter, trailerByte, hr.crc]
  · rw [crcHigh_toNat]
    exact Nat.mod_eq_of_lt (Nat.div_lt_of_lt_mul (crc16 p).isLt)
  · rw [Source.buildFrame, List.length_append, List.length_cons, List.length_singleton]

/-! ### The source's validateFrame and FRMCHK (R115) -/

theorem exists_trailer {f : List Byte} (h : 2 ≤ f.length) : ∃ p lo hi, f = p ++ [lo, hi] := by
  have htail : (f.drop (f.length - 2)).length = 2 := by
    rw [List.length_drop]
    omega
  obtain ⟨lo, hi, hdrop⟩ := List.length_eq_two.mp htail
  exact ⟨f.take (f.length - 2), lo, hi, by rw [← hdrop, List.take_append_drop]⟩

/-- The source's validateFrame compares the payload's CRC with the trailer. -/
theorem validateFrame_trailer (p : List Byte) (lo hi : Byte) :
    Source.validateFrame (p ++ [lo, hi]) = true ↔ crc16 p = trailerValue lo hi := by
  rw [eq_trailerValue_iff]
  simp [Source.validateFrame]

theorem validateFrame_of_length_lt {f : List Byte} (h : f.length < 2) : Source.validateFrame f = false := by
  match f, h with
  | [], _ | [_], _ => rfl

/-- What FRMCHK is to find in a frame (R115). -/
def verdictOf (f : List Byte) : FrameVerdict :=
  if f.length < 2 then .short else if Source.validateFrame f then .valid else .mismatch

theorem Codec.Reflects.trailer {c : Codec} {p : List Byte} {lo hi : Byte} (h : c.Reflects (p ++ [lo, hi])) :
    c.h2 = crc16 p ∧ c.t0 = lo ∧ c.t1 = hi := by
  have htwo : (p ++ [lo, hi]).length - 2 = p.length := by simp
  have hone : (p ++ [lo, hi]).length - 1 = p.length + 1 := by simp
  have ht0 : lo = c.t0 := by simpa [htwo] using h.t0
  have ht1 : hi = c.t1 := by simpa [hone] using h.t1
  refine ⟨?_, ht0.symm, ht1.symm⟩
  rw [h.h2, htwo, List.take_left]

/-- FRMCHK finds it in every codec that reflects the frame: H2 is the payload's CRC, T0 and T1 are the trailer. -/
theorem Codec.Reflects.frameVerdict_eq {c : Codec} {f : List Byte} (h : c.Reflects f) :
    frameVerdict c = verdictOf f := by
  have hshort_iff : c.fill < 2 ↔ f.length < 2 := by
    rw [Fin.lt_def, h.fill, show (2 : Fin 3).val = 2 from rfl, min_lt_iff]
    simp
  unfold verdictOf
  by_cases hshort : f.length < 2
  · rw [if_pos hshort, frameVerdict_of_short (hshort_iff.mpr hshort)]
  · rw [if_neg hshort, frameVerdict_of_not_short (mt hshort_iff.mp hshort)]
    obtain ⟨p, lo, hi, rfl⟩ := exists_trailer (Nat.le_of_not_lt hshort)
    obtain ⟨hh2, rfl, rfl⟩ := h.trailer
    simp only [hh2, validateFrame_trailer]

/-- From every state, `frm.validate` answers by the frame alone. -/
theorem perform_frmValidate (s : State) (f : List Byte) :
    ∃ t, perform (expand (.frmValidate f)) s = .next t ∧ t.rsp = some (verdictOf f).response := by
  obtain ⟨t, hrun, hr, -⟩ := perform_crcInit_feeds s f
  refine ⟨_, perform_concat hrun .frmChk, ?_⟩
  rw [afterEvent_offered_rsp, ← hr.frameVerdict_eq]
  rfl

theorem FrameVerdict.response_eq_ok_iff (v : FrameVerdict) :
    some v.response = some { err := .ok, data := 1#32 } ↔ v = .valid := by
  cases v <;> simp [FrameVerdict.response, FrameVerdict.err, FrameVerdict.data]

/-- A frame that validateFrame accepts has its trailer, so it is not short. -/
theorem verdictOf_eq_valid_iff (f : List Byte) : verdictOf f = .valid ↔ Source.validateFrame f = true := by
  unfold verdictOf
  by_cases hshort : f.length < 2
  · simp [hshort, validateFrame_of_length_lt hshort]
  · simp [hshort]

theorem verdictOf_of_mismatch {f : List Byte} (hlen : 2 ≤ f.length) (h : Source.validateFrame f = false) :
    verdictOf f = .mismatch := by
  rw [verdictOf, if_neg (Nat.not_lt_of_le hlen), h, if_neg Bool.false_ne_true]

/-- Settles O41: the verdict is `short` below two bytes, and otherwise follows validateFrame. -/
theorem frmValidateRealisesValidateFrame : Obligations.FrmValidateRealisesValidateFrame := by
  intro s f
  obtain ⟨t, hrun, hrsp⟩ := perform_frmValidate s f
  refine ⟨t, hrun, ?_, fun hshort => ?_, ?_⟩
  · rw [hrsp, FrameVerdict.response_eq_ok_iff, verdictOf_eq_valid_iff]
  · rw [hrsp, verdictOf, if_pos hshort]
    rfl
  · rintro p lo hi rfl hne
    rw [hrsp, verdictOf_of_mismatch (by simp)]
    · rfl
    · rwa [← Bool.not_eq_true, validateFrame_trailer, eq_trailerValue_iff]

/-! ### The residue of a frame (R116, R118) -/

theorem crc16_trailer_eq_zero_iff (p : List Byte) (lo hi : Byte) :
    crc16 (p ++ [lo, hi]) = 0#16 ↔ crc16 p = trailerValue lo hi := by
  rw [List.append_cons, crc16_concat, crc16_concat, crcByte_crcByte_eq_zero_iff]

/-- FRMCHK needs no history: the CRC over the whole frame tells (R118). -/
theorem validateFrame_iff_residue {f : List Byte} (h : 2 ≤ f.length) :
    Source.validateFrame f = true ↔ crc16 f = 0#16 := by
  obtain ⟨p, lo, hi, rfl⟩ := exists_trailer h
  rw [validateFrame_trailer, crc16_trailer_eq_zero_iff]

theorem validateFrame_buildFrame (p : List Byte) : Source.validateFrame (Source.buildFrame p) = true :=
  (validateFrame_trailer p _ _).mpr (trailerValue_crc (crc16 p)).symm

/-- Settles O42: the trailer of a built frame, read back, is the payload's CRC. -/
theorem builtFrameValidates : Obligations.BuiltFrameValidates := by
  intro s p
  obtain ⟨t, hrun, hrsp⟩ := perform_frmValidate s (Source.buildFrame p)
  rw [(verdictOf_eq_valid_iff _).mpr (validateFrame_buildFrame p)] at hrsp
  exact ⟨t, hrun, hrsp⟩

/-- Settles O44: the trailer alone brings the CRC to 0, in the frame and in a coherent codec. -/
theorem frameResidueIsZero : Obligations.FrameResidueIsZero := by
  refine ⟨fun p => ?_, fun s f hlen => ?_, fun s hc => ?_⟩
  · exact (crc16_trailer_eq_zero_iff p _ _).mpr (trailerValue_crc (crc16 p)).symm
  · obtain ⟨t, hrun, hrsp⟩ := perform_frmValidate s f
    refine ⟨t, hrun, ?_⟩
    rw [hrsp, FrameVerdict.response_eq_ok_iff, verdictOf_eq_valid_iff, validateFrame_iff_residue hlen]
  · rw [exec_frmChk, hc.frameVerdict_eq]
    rfl

/-! ### One byte changed (R117) -/

/-- Different bytes take the CRC before them to different values, and the bytes after them keep those apart. -/
theorem crc16_set_injective {f : List Byte} {j : Nat} (hj : j < f.length) :
    Function.Injective fun b => crc16 (f.set j b) := by
  have hsplit : (fun b => crc16 (f.set j b)) =
      (crcFold · (f.drop (j + 1))) ∘ crcByte (crc16 (f.take j)) := by
    funext b
    rw [List.set_eq_take_append_cons_drop, if_pos hj, crc16, crcFold_append, crcFold_cons]
    rfl
  rw [hsplit]
  exact (crcFold_injective _).comp (crcByte_right_injective _)

theorem crc16_set_xor_ne {f : List Byte} {j : Nat} (hj : j < f.length) {e : Byte} (he : e ≠ 0#8) :
    crc16 (f.set j (f[j] ^^^ e)) ≠ crc16 f := by
  intro h
  have hbyte : f[j] ^^^ e = f[j] := crc16_set_injective hj (by simpa using h)
  exact he ((BitVec.xor_right_inj f[j]).mp (hbyte.trans BitVec.xor_zero.symm))

/-- Settles O43: the valid frame's CRC is 0, so the changed frame's is not. -/
theorem singleByteChangeIsDetected : Obligations.SingleByteChangeIsDetected := by
  intro s f j hj e hvalid he
  have hlen : 2 ≤ f.length := by
    by_contra hshort
    rw [validateFrame_of_length_lt (Nat.lt_of_not_le hshort)] at hvalid
    cases hvalid
  have hlen' : 2 ≤ (f.set j (f[j] ^^^ e)).length := by rwa [List.length_set]
  have hinvalid : Source.validateFrame (f.set j (f[j] ^^^ e)) = false := by
    rw [validateFrame_iff_residue hlen] at hvalid
    rw [← Bool.not_eq_true, validateFrame_iff_residue hlen', ← hvalid]
    exact crc16_set_xor_ne hj he
  obtain ⟨t, hrun, hrsp⟩ := perform_frmValidate s (f.set j (f[j] ^^^ e))
  rw [verdictOf_of_mismatch hlen' hinvalid] at hrsp
  exact ⟨t, hrun, hrsp⟩

end Sys2Proof.Machine
end

section
/-! PROOFS. Exceptions (60_exceptions.md): the error responses of each command (R125, R126), illegal words (R127), and
that no step stops (R131, R144). -/

namespace Sys2Proof.Machine

/-! ### Illegal words (R127) -/

/-- An accepted word that is not legal places ILLEGAL_COMMAND on the response port and does nothing else. -/
theorem accept_of_not_legal {w : Word} (h : legal w = false) (s : State) :
    accept w s = .next (s.respond .illegalCommand 0#32) := by
  obtain ⟨why, hd⟩ := decode_illegal_of_not_command fun i hi => by
    simp [(legal_iff_decode w).mpr ⟨i, hi⟩] at h
  rw [accept, hd, illegalCommand_eq]

/-- Settles O23: the step accepts the word, and the host captures the one response. -/
theorem illegalWordWritesNothing : Obligations.IllegalWordWritesNothing := by
  intro s w rest h
  rw [step_command, accept_of_not_legal h]
  rfl

/-! ### The error responses of a command (R125, R126) -/

/-- The responses other than OK that a command of each kind can give: the rows of R125, read by the command that
raises them. -/
def errorResponses : Mnemonic → List Response
  | .crcInit | .crcFeed | .crcGet | .frmTail | .decClr | .decLoad => []
  | .frmChk => [⟨.invalidFrame, 2#32⟩, ⟨.invalidFrame, 0#32⟩]
  | .decRun => [⟨.invalidRegisterCount, 0#32⟩]
  | .decRd => [⟨.notReady, 0#32⟩]
  | .addrChk => [⟨.invalidAddress, 0#32⟩]

/-- A command succeeds, or answers one of its error responses: FRMCHK by its verdict, and the three others with a
check by that check. -/
theorem responseOf_ok_or_error (i : Instr) (c : Codec) (d : Decoder) :
    (responseOf i c d).err = .ok ∨ responseOf i c d ∈ errorResponses i.mnemonic := by
  cases i with
  | crcInit | crcFeed | crcGet | frmTail | decClr | decLoad => exact .inl rfl
  | frmChk =>
    rw [responseOf]
    cases frameVerdict c with
    | short | mismatch => exact .inr (by decide)
    | valid => exact .inl rfl
  | decRun =>
    rw [responseOf]
    cases blockComplete d with
    | true => exact .inl rfl
    | false => exact .inr (List.mem_singleton.mpr rfl)
  | decRd view field =>
    rw [responseOf]
    cases d.dv with
    | true => exact .inl rfl
    | false => exact .inr (List.mem_singleton.mpr rfl)
  | addrChk a =>
    rw [responseOf]
    cases addressInRange a with
    | true => exact .inl rfl
    | false => exact .inr (List.mem_singleton.mpr rfl)

theorem ok_mem_possibleCodes (m : Mnemonic) : ErrCode.ok ∈ possibleCodes m := by
  cases m <;> decide

theorem err_mem_possibleCodes_of_error (m : Mnemonic) : ∀ r ∈ errorResponses m, r.err ∈ possibleCodes m := by
  cases m <;> decide

/-- A command's response has a code of its row (R126). -/
theorem responseOf_err_mem_possibleCodes (i : Instr) (c : Codec) (d : Decoder) :
    (responseOf i c d).err ∈ possibleCodes i.mnemonic := by
  obtain hok | herr := responseOf_ok_or_error i c d
  · rw [hok]
    exact ok_mem_possibleCodes i.mnemonic
  · exact err_mem_possibleCodes_of_error _ _ herr

/-- Settles O29: each command answers a code of its row, and a word that is no command answers ILLEGAL_COMMAND. -/
theorem responseCodesPerCommand : Obligations.ResponseCodesPerCommand :=
  ⟨fun i s => ⟨_, _, exec_eq i s, rfl, responseOf_err_mem_possibleCodes i s.codec s.dec⟩,
    fun _ s h => ⟨_, _, accept_of_not_legal h s, rfl, rfl⟩⟩

/-- The numbers 6 and 7 belong to no code (R125). -/
theorem ErrCode.code_le (e : ErrCode) : e.code.toNat ≤ 5 := by
  cases e <;> decide

/-- ILLEGAL_COMMAND is in no command's row (R126). -/
theorem illegalCommand_not_mem_possibleCodes (m : Mnemonic) : ErrCode.illegalCommand ∉ possibleCodes m := by
  cases m <;> decide

/-- What R125 says of the data of a response: 2 or 0 with INVALID_FRAME, 0 with every other error. -/
def Response.ErrorDataOk (r : Response) : Prop :=
  (r.err = .invalidFrame → r.data = 2#32 ∨ r.data = 0#32) ∧ (r.err ≠ .ok → r.err ≠ .invalidFrame → r.data = 0#32)

theorem errorDataOk_of_error (m : Mnemonic) : ∀ r ∈ errorResponses m, r.ErrorDataOk := by
  unfold Response.ErrorDataOk
  cases m <;> decide

theorem errorDataOk_of_ok {r : Response} (h : r.err = .ok) : r.ErrorDataOk :=
  ⟨fun hframe => by simp [h] at hframe, fun hne => absurd h hne⟩

/-- Settles O30: the response is that of a command, whose row has no ILLEGAL_COMMAND, or that of an illegal word. -/
theorem responseNumbersAndData : Obligations.ResponseNumbersAndData := by
  refine ⟨rfl, rfl, rfl, rfl, rfl, rfl, fun w s => ?_⟩
  cases hlegal : legal w with
  | false =>
    exact ⟨_, _, accept_of_not_legal hlegal s, rfl, ErrCode.code_le _, iff_of_true rfl rfl, nofun, fun _ _ => rfl⟩
  | true =>
    obtain ⟨i, hi⟩ := (legal_iff_decode w).mp hlegal
    have hcode := responseOf_err_mem_possibleCodes i s.codec s.dec
    have hdata : (responseOf i s.codec s.dec).ErrorDataOk :=
      (responseOf_ok_or_error i s.codec s.dec).elim errorDataOk_of_ok (errorDataOk_of_error _ _)
    refine ⟨_, _, (accept_of_decode hi s).trans (exec_eq i s), rfl, ErrCode.code_le _,
      iff_of_false (fun h => ?_) Bool.true_eq_false.mp, hdata⟩
    exact illegalCommand_not_mem_possibleCodes i.mnemonic (h ▸ hcode)

/-! ### Nothing stops PMCORE (R131, R144) -/

/-- Settles O28: a step waits, or serves an event, and either answers a next state. -/
theorem everyStepIsSafe : Obligations.EveryStepIsSafe := by
  intro s
  cases hp : s.pending with
  | nil => exact ⟨_, step_nil hp⟩
  | cons e rest => exact ⟨_, step_cons hp⟩

end Sys2Proof.Machine
end

section
/-! PROOFS. Reset and the edges of the host's protocol (70_reset_and_hazards.md): reset and recovery (R145), a command
that reset cuts short (R146), reset by commands (R148), a missed response (R154) and a held host (R155). -/

namespace Sys2Proof.Machine

/-! ### Reset and recovery at the ports (R145) -/

/-- The phase of a block that keeps `cmd_ready` = 0 for the next `n` cycles of its recovery: `Phase.recovering` counts
the cycles after the present one, and with none left at all the block is ready. -/
def Phase.recoveringFor : Nat → Phase
  | 0 => .idle
  | n + 1 => .recovering n

/-- P_RESET_RECOVERY may be 0; then no cycle of recovery comes. -/
theorem phaseAfterReset_eq : phaseAfterReset = .recoveringFor Config.resetRecovery := by
  unfold phaseAfterReset
  cases Config.resetRecovery <;> rfl

theorem cycle_recoveringFor_succ {i : PortIn} {p : Port} {n : Nat} (h : i.rstN = true)
    (hp : p.phase = .recoveringFor (n + 1)) :
    cycle i p = ({ p with phase := .recoveringFor n }, { cmdReady := false, rsp := none }) := by
  cases n with
  | zero => exact cycle_recovering_zero h hp
  | succ n => exact cycle_recovering_succ h hp

/-- The outputs up to the first cycle with `cmd_ready` = 1, which comes when the recovery is over. -/
theorem cycles_recoveringFor_getElem? {is : List PortIn} {p : Port} {n k : Nat} (hp : p.phase = .recoveringFor n)
    (hrst : ∀ i ∈ is, i.rstN = true) (hlen : k < is.length) (hk : k ≤ n) :
    (cycles is p).2[k]? = some { cmdReady := decide (k = n), rsp := none } := by
  induction is generalizing p n k with
  | nil => exact absurd hlen (Nat.not_lt_zero k)
  | cons i is ih =>
    have hi := hrst i List.mem_cons_self
    cases n with
    | zero =>
      obtain rfl := Nat.le_zero.mp hk
      simp [cycles, cycle_idle hi hp]
    | succ n =>
      cases k with
      | zero => simp [cycles, cycle_recoveringFor_succ hi hp]
      | succ k =>
        have hrest := ih (p := { p with phase := .recoveringFor n }) rfl
          (fun j hj => hrst j (List.mem_cons_of_mem i hj)) (Nat.lt_of_succ_lt_succ hlen) (Nat.le_of_succ_le_succ hk)
        simpa [cycles, cycle_recoveringFor_succ hi hp] using hrest

/-- Settles O53: a cycle in reset leaves the block with P_RESET_RECOVERY cycles of recovery to come. -/
theorem portResetAndRecovery : Obligations.PortResetAndRecovery := by
  refine ⟨fun i p h => ?_, fun is k hrst hlen hk => ?_⟩
  · rw [cycle_reset p h]
    exact ⟨rfl, rfl, rfl⟩
  · exact cycles_recoveringFor_getElem? phaseAfterReset_eq hrst hlen hk

/-! ### Reset during a command at the ports (R146) -/

/-- The last cycle of a sequence starts from the block that the cycles before it leave. -/
theorem cycles_concat (is : List PortIn) (i : PortIn) (p : Port) :
    cycles (is ++ [i]) p =
      ((cycle i (cycles is p).1).1, (cycles is p).2 ++ [(cycle i (cycles is p).1).2]) := by
  induction is generalizing p with
  | nil => rfl
  | cons j is ih => simp [cycles, ih]

/-- A command in progress presents nothing before the cycle that its latency gives. -/
theorem responses_busy_eq_nil {w : Word} {left : Nat} {is : List PortIn} {p : Port} (hp : p.phase = .busy w left)
    (hrst : ∀ j ∈ is, j.rstN = true) (hlen : is.length ≤ left) : responses (cycles is p).2 = [] := by
  induction is generalizing p left with
  | nil => rfl
  | cons j is ih =>
    obtain ⟨n, rfl⟩ := Nat.exists_eq_add_one_of_ne_zero (Nat.ne_zero_of_lt hlen)
    have hrest := ih (p := { p with phase := .busy w n }) rfl (fun k hk => hrst k (List.mem_cons_of_mem j hk))
      (Nat.le_of_succ_le_succ hlen)
    simpa [cycles, cycle_busy_succ (hrst j List.mem_cons_self) hp, responses_cons] using hrest

/-- Settles O55: the command presents nothing before the cycle in reset, and that cycle presents nothing whatever the
command had done. -/
theorem portResetAbandonsCommand : Obligations.PortResetAbandonsCommand := by
  intro p w left is i hp hrst hlen hreset
  have hbefore := responses_busy_eq_nil hp hrst hlen
  rw [cycles_concat, cycle_reset _ hreset]
  exact ⟨rfl, by simpa [responses] using hbefore⟩

/-! ### A held host (R155) -/

/-- A number of cycles without reset that always holds one with `cmd_ready` = 1. A block that presents a response may
be ready only in the next cycle (log entry 14). -/
def Phase.readyWithin : Phase → Nat
  | .idle => 1
  | .recovering n => n + 2
  | .busy _ n => n + 2

/-- A cycle without reset that is not ready brings the ready one closer. -/
theorem cycle_ready_or_closer {i : PortIn} (p : Port) (hrst : i.rstN = true) :
    (cycle i p).2.cmdReady = true ∨ (cycle i p).1.phase.readyWithin < p.phase.readyWithin := by
  cases hp : p.phase with
  | idle => simp [cycle_idle hrst hp]
  | recovering n =>
    cases n with
    | zero => simp [cycle_recovering_zero hrst hp, Phase.readyWithin]
    | succ n => simp [cycle_recovering_succ hrst hp, Phase.readyWithin]
  | busy w n =>
    cases n with
    | zero =>
      rw [cycle_busy_zero hrst hp]
      cases Config.readyWhilePresenting with
      | true => exact .inl rfl
      | false => exact .inr Nat.one_lt_two
    | succ n => simp [cycle_busy_succ hrst hp, Phase.readyWithin]

theorem Phase.readyWithin_pos (ph : Phase) : 0 < ph.readyWithin := by
  cases ph <;> exact Nat.succ_pos _

theorem exists_ready_of_readyWithin_le {is : List PortIn} {p : Port} (hrst : ∀ i ∈ is, i.rstN = true)
    (hlen : p.phase.readyWithin ≤ is.length) : ∃ o ∈ (cycles is p).2, o.cmdReady = true := by
  induction is generalizing p with
  | nil => exact absurd hlen (Nat.not_le.mpr p.phase.readyWithin_pos)
  | cons i is ih =>
    obtain hready | hcloser := cycle_ready_or_closer p (hrst i List.mem_cons_self)
    · exact ⟨_, List.mem_cons_self, hready⟩
    · obtain ⟨o, ho, hready⟩ := ih (fun j hj => hrst j (List.mem_cons_of_mem i hj))
        (Nat.le_of_lt_succ (hcloser.trans_le hlen))
      exact ⟨o, List.mem_cons_of_mem _ ho, hready⟩

/-- Settles O56: the bound is the phase's own. -/
theorem portHostIsNeverStuck : Obligations.PortHostIsNeverStuck := fun p =>
  ⟨p.phase.readyWithin, fun _ => exists_ready_of_readyWithin_le⟩

/-! ### Reset as a step (R145, R146) -/

theorem step_reset (s : State) (rest : List HostEvent) :
    step { s with pending := .reset :: rest } = .next { State.reset with pending := rest } := rfl

theorem step_abandoned (s : State) (w : Word) (rest : List HostEvent) :
    step { s with pending := .abandoned w :: rest } = .next { State.reset with pending := rest } := rfl

/-- Settles O25: the step leaves the reset state, whose values R34 gives, and the host's list. -/
theorem resetStepLeavesResetValues : Obligations.ResetStepLeavesResetValues := by
  intro s rest
  obtain ⟨hcrc, hh1, hh2, hfill, hrbn, hdv, hrsp⟩ := resetStateValues
  exact ⟨_, step_reset s rest, hcrc, hh1, hh2, hfill, hrbn, hdv, hrsp, rfl, rfl⟩

/-- Settles O26: both steps leave the one reset state. -/
theorem abandonedCommandIsReset : Obligations.AbandonedCommandIsReset := fun s s' w rest =>
  ⟨_, step_abandoned s w rest, rfl, step_reset s' rest⟩

/-! ### A missed response (R154) -/

/-- A command whose response is captured is the one whose response is missed, and then the capture. -/
theorem afterEvent_command_eq_capture_missed (w : Word) (s : State) :
    afterEvent (.command w) s = (afterEvent (.missed w) s).capture := rfl

/-- Settles O27: the two events perform the same command and differ in the capture alone. -/
theorem missedResponseStillPerforms : Obligations.MissedResponseStillPerforms := by
  intro s w rest
  refine ⟨afterEvent (.missed w) { s with pending := rest }, responseOfWord w s.codec s.dec, step_cons rfl, rfl, rfl, ?_⟩
  rw [step_cons rfl, afterEvent_command_eq_capture_missed]
  rfl

/-! ### Reset by commands (R148) -/

/-- With no register loaded and nothing decoded, no element of the block and no latch counts (R34). -/
theorem Decoder.agree_of_empty {d d' : Decoder} (hn : d.rbn = 0) (hn' : d'.rbn = 0) (hv : d.dv = false)
    (hv' : d'.dv = false) : d.Agree d' where
  rbn := hn.trans hn'.symm
  rb i _ hlt := by simp [hn] at hlt
  dv := hv.trans hv'.symm
  latches h := by simp [hv] at h

/-- Settles O32: CRCINIT leaves the reset state's codec, and DECCLR an empty decoder. -/
theorem resetEqualsInitAndClear : Obligations.ResetEqualsInitAndClear := by
  intro s
  refine ⟨_, serveAll_eq [offered .crcInit, offered .decClr] s, ?_, ?_⟩
  · have hcodec : codecStart = State.reset.codec := rfl
    simpa [codecAfter, hcodec] using Codec.Agree.refl State.reset.codec
  · simpa [decAfter] using Decoder.agree_of_empty (clearBlock_rbn s.dec) rfl (clearBlock_dv s.dec) rfl

end Sys2Proof.Machine
end
